-- ==== Sys2Proof/Word.lean ====
section
/-! DEFINITION. The Word of spec/00_scope.md (R5, R6): an unsigned 32-bit integer, and the byte the digest characters and the
host's message are made of. Bits are numbered from 0, the least significant. -/

namespace Sys2Proof

/-- R5 (WORD_W) and the glossary of 00_scope.md: "an unsigned 32-bit integer". `+` on it is modulo 2^32 (R7), `&&&`, `|||`, `^^^`
are bitwise on 32 bits, `~~~` is the 32-bit complement, `<<<` truncates to 32 bits and `>>>` fills with zeros. -/
abbrev Word := BitVec 32

/-- One 8-bit byte: an ASCII character of the digest (R160), or a byte of the host's message (R170). -/
abbrev Byte := BitVec 8

end Sys2Proof
end

