-- ==== Sys2Proof/Syntax.lean ====
section
/-! DEFINITION. The 19 commands of spec/opcode_table.json (R83 of 30_encoding.md), one constructor a row. A command names its
operands implicitly (R80); the one field with a choice is the IMM byte of ROTR and SHR (R81). -/

namespace Sys2Proof

/-- A command. `imm` is the IMM field, bits 7:0 of the command word, of the two commands that take an immediate (R80, R81); the
amount is its low five bits, and `Instr.wf` asks the high three to be 0. -/
inductive Instr where
  /-- OPC 0x00, R100. -/
  | nop
  /-- OPC 0x01, R101. -/
  | srst
  /-- OPC 0x02, R102. -/
  | init
  /-- OPC 0x10, R111. -/
  | rotr (imm : BitVec 8)
  /-- OPC 0x11, R112. -/
  | shr (imm : BitVec 8)
  /-- OPC 0x12, R113. -/
  | ch
  /-- OPC 0x13, R114. -/
  | maj
  /-- OPC 0x14, R115. -/
  | bsig0
  /-- OPC 0x15, R116. -/
  | bsig1
  /-- OPC 0x16, R117. -/
  | ssig0
  /-- OPC 0x17, R118. -/
  | ssig1
  /-- OPC 0x18, R119. -/
  | add
  /-- OPC 0x20, R132. -/
  | exp1
  /-- OPC 0x21, R133. -/
  | expall
  /-- OPC 0x30, R142. -/
  | rnd1
  /-- OPC 0x31, R143. -/
  | rndall
  /-- OPC 0x32, R152. -/
  | accum
  /-- OPC 0x33, R153. -/
  | block
  /-- OPC 0x40, R161. -/
  | encode
  deriving DecidableEq, Repr

end Sys2Proof
end

