-- ==== Sys2Proof/WellFormed.lean ====
section
/-! DEFINITION. Which terms of `Instr` are commands the word format can spell (R81 of 30_encoding.md). -/

namespace Sys2Proof

/-- R81: "IMM[7:5] must be 0", so the amount of ROTR and SHR is 0 to 31. No other command takes an operand from its word. -/
def Instr.wf : Instr → Bool
  | .rotr imm | .shr imm => imm.extractLsb' 5 3 == 0#3
  | .nop | .srst | .init | .ch | .maj | .bsig0 | .bsig1 | .ssig0 | .ssig1 | .add | .exp1 | .expall | .rnd1 | .rndall | .accum
  | .block | .encode => true

end Sys2Proof
end

