-- ==== Sys2Proof/Decode.lean ====
section
/-! DEFINITION. The command word (R80 to R85 of 30_encoding.md): decode, total on every 32-bit word and rejecting by name, and after it
the encoder, written from the same table (R83). -/

namespace Sys2Proof

/-- Why a word spells no command (R84). Both are errors the core records in STATUS and goes on. -/
inductive DecodeError where
  /-- OPC is none of the 19 assigned values. -/
  | illegalOpcode
  /-- OPC is assigned and RSV, or IMM, is not what the command allows. -/
  | badField
  deriving DecidableEq, Repr

/-- R80: OPC is bits 31:24. -/
def opcField (v : Word) : BitVec 8 := v.extractLsb' 24 8

/-- R80: RSV is bits 23:8. -/
def rsvField (v : Word) : BitVec 16 := v.extractLsb' 8 16

/-- R80: IMM is bits 7:0. -/
def immField (v : Word) : BitVec 8 := v.extractLsb' 0 8

/-- The opcode map of R83: the command of an OPC, with the word's IMM where the command takes one. -/
def commandOf (opc imm : BitVec 8) : Option Instr :=
  match opc.toNat with
  | 0x00 => some .nop
  | 0x01 => some .srst
  | 0x02 => some .init
  | 0x10 => some (.rotr imm)
  | 0x11 => some (.shr imm)
  | 0x12 => some .ch
  | 0x13 => some .maj
  | 0x14 => some .bsig0
  | 0x15 => some .bsig1
  | 0x16 => some .ssig0
  | 0x17 => some .ssig1
  | 0x18 => some .add
  | 0x20 => some .exp1
  | 0x21 => some .expall
  | 0x30 => some .rnd1
  | 0x31 => some .rndall
  | 0x32 => some .accum
  | 0x33 => some .block
  | 0x40 => some .encode
  | _ => none

/-- R85: OPC 0x10 and 0x11 are the two commands that take an immediate. -/
def takesAmount (opc : BitVec 8) : Bool := opc == 0x10#8 || opc == 0x11#8

/-- The decode checks of `Execute(v)`, in R85's order: the opcode first, then RSV, then IMM. -/
def decode (v : Word) : Except DecodeError Instr :=
  match commandOf (opcField v) (immField v) with
  | none => .error .illegalOpcode
  | some i =>
    if rsvField v ≠ 0#16 then .error .badField
    else if takesAmount (opcField v) then
      if (immField v).extractLsb' 5 3 ≠ 0#3 then .error .badField else .ok i
    else if immField v ≠ 0#8 then .error .badField
    else .ok i

/-- The OPC of each command (R83). -/
def opcodeOf : Instr → BitVec 8
  | .nop => 0x00
  | .srst => 0x01
  | .init => 0x02
  | .rotr _ => 0x10
  | .shr _ => 0x11
  | .ch => 0x12
  | .maj => 0x13
  | .bsig0 => 0x14
  | .bsig1 => 0x15
  | .ssig0 => 0x16
  | .ssig1 => 0x17
  | .add => 0x18
  | .exp1 => 0x20
  | .expall => 0x21
  | .rnd1 => 0x30
  | .rndall => 0x31
  | .accum => 0x32
  | .block => 0x33
  | .encode => 0x40

/-- The IMM of each command: its own where it takes one, else 0 (R80). -/
def immediateOf : Instr → BitVec 8
  | .rotr imm | .shr imm => imm
  | .nop | .srst | .init | .ch | .maj | .bsig0 | .bsig1 | .ssig0 | .ssig1 | .add | .exp1 | .expall | .rnd1 | .rndall | .accum
  | .block | .encode => 0

/-- The command word of a command: OPC, then RSV = 0, then IMM (R80, R83). -/
def encode (i : Instr) : Word := opcodeOf i ++ 0#16 ++ immediateOf i

/-- The command a row of spec/opcode_table.json reads as: the `nbits` low bits of `w` as the command word, every bit above them 0. No
command is longer than 32 bits (R80: "There is no other length"), so a value that needs more is none. -/
def decodeTableWord (nbits w : Nat) : Option Instr :=
  if w % 2 ^ nbits < 2 ^ 32 then
    match decode (BitVec.ofNat 32 (w % 2 ^ nbits)) with
    | .ok i => some i
    | .error _ => none
  else none

end Sys2Proof
end

