-- ==== Sys2Proof/Config.lean ====
section
/-! DEFINITION. What the platform fixes (the OPEN parameters of R5, 00_scope.md) and the free values of a hardware reset (R38 of
10_state.md, R203 of 70_reset_and_hazards.md). Each constant marked `opaque` has no value a proof can see, so a claim about the
model holds for every value of it. -/

namespace Sys2Proof.Config

/-- The registers whose value after a hardware reset R38 leaves UNSPEC, each with a draw of its own (R203: "one draw per
register"). -/
inductive ResetReg where
  | x
  | y
  | z
  | r
  | w (j : Fin 64)
  | h (i : Fin 8)
  | wv (i : Fin 8)
  | dg (k : Fin 16)
  deriving DecidableEq, Repr

/-- The UNSPEC draws: `resetDraw n reg` is what register `reg` holds after the machine's hardware reset number `n` (0 is the one that
leads to `State.reset`), until it is written. A FREE VALUE (assumption log 1): R203, "A model gives each UNSPEC register a free value
at reset (one draw per register, kept until the register is written)"; U1, "Never zero by assumption". -/
opaque resetDraw : Nat → ResetReg → Word

/-- Parameter BASE of R5: the byte address of window offset 0x000 in the platform's address map. -/
opaque base : Nat

/-- Parameter CYC_op of R5: the execution time of each command. R208: "no rule of this spec depends on it"; none of the model does. -/
opaque cycles : Instr → Nat

/-- Parameter N_INSTANCES of R5: the number of cores of the platform, each with a window and a state of its own (R192). The model is
one of them. -/
opaque instances : Nat

/-- The two kinds of hardware reset of R200. -/
inductive ResetKind where
  | synchronous
  | asynchronous
  deriving DecidableEq, Repr, Inhabited

/-- Parameter RESET_KIND of R5: the kind of the reset and its minimum duration. No rule depends on either (U7). -/
opaque resetKind : ResetKind × Nat

/-- R5, R50: the window is 0x200 bytes, offsets 0x000 to 0x1FF. -/
def windowBytes : Nat := 0x200

end Sys2Proof.Config
end

