-- ==== Sys2Proof/Machine/State.lean ====
section
/-! DEFINITION. The state of the core (10_state.md), what the host can do to it (20_memory.md R50 to R54, 70_reset_and_hazards.md R200),
the reasons a step can stop, and the state after a hardware reset (R38). -/

namespace Sys2Proof.Machine

/-- The ECODE register (R33, R34): "(none)" and the seven codes of R181. It is 4 bits wide; the codes 8 to 15 "are never recorded", and
U11 lets a model's types exclude them. Flags.lean's `ecodeBits` gives each its number. -/
inductive ECode where
  /-- Code 0: no error recorded. -/
  | none
  /-- Code 1: a CMD word with an unassigned OPC. -/
  | illegalOpcode
  /-- Code 2: an assigned OPC with a bad RSV or IMM. -/
  | badField
  /-- Code 3: a command that reads H while HV = 0. -/
  | notInit
  /-- Code 4: a push or an expansion out of sequence. -/
  | seqSched
  /-- Code 5: a round out of sequence. -/
  | seqRound
  /-- Code 6: an accumulation before all 64 rounds. -/
  | seqAccum
  /-- Code 7: a bus write to a read-only or unmapped offset. -/
  | busWrite
  deriving DecidableEq, Repr

/-- Where a bus access goes (R50). "The core decodes only the offset": an address inside the window is its 9-bit offset from BASE. -/
inductive BusAddr where
  /-- Byte offset 0x000 to 0x1FF of the core's window. -/
  | window (off : BitVec 9)
  /-- Any other byte address of the platform: not the core's. -/
  | outside (addr : Nat)
  deriving DecidableEq, Repr

/-- What the outside world does to the core: a bus read or write (R20, R21), or a hardware reset (R200). `bytes` is the width of the
access, 4 for every access R54 admits; `v` is the value written (of a wider access, which is refused, its low 32 bits). -/
inductive HostEvent where
  | read (addr : BusAddr) (bytes : Nat)
  | write (addr : BusAddr) (bytes : Nat) (v : Word)
  /-- The reset input is asserted and released again. -/
  | reset
  deriving DecidableEq, Repr

/-- All the state the spec gives the core (10_state.md), and at the end what the model keeps of the outside world (assumption logs 1, 2
and 3). SC and RC are the spec's 7-bit counters "holding 0 to 64" (assumption log 6). -/
structure State where
  /-- ALU operand register X (R23). -/
  x : Word
  /-- ALU operand register Y (R23). -/
  y : Word
  /-- ALU operand register Z (R23). -/
  z : Word
  /-- ALU result register R (R24). -/
  r : Word
  /-- The message schedule W[0..63] (R25). -/
  w : Vector Word 64
  /-- The schedule count SC (R26). -/
  sc : Fin 65
  /-- The working variables WV[0..7] = a..h (R27). -/
  wv : Vector Word 8
  /-- The round count RC (R28). -/
  rc : Fin 65
  /-- The hash state H[0..7] (R29). -/
  h : Vector Word 8
  /-- Hash-state valid, HV (R30). -/
  hv : Bool
  /-- The digest buffer DG[0..15] (R31). -/
  dg : Vector Word 16
  /-- Digest valid, DV (R32). -/
  dv : Bool
  /-- The sticky error flag ERR (R33). -/
  err : Bool
  /-- The error code ECODE (R33). -/
  ecode : ECode
  /-- The model's own: the bus accesses and resets still to come, the next first (R20, R59). -/
  bus : List HostEvent
  /-- The model's own: the value the bus returned for the access performed last, if it was a read (R52). -/
  rdata : Option Word
  /-- The model's own: how many hardware resets came after the first, which picks the free draws of the next (R203). -/
  resets : Nat
  deriving DecidableEq, Repr

/-- The reasons the machine stops with a fault: there are none. R183: "an error never stops, hangs or resets the core", and R180: "No
operation on valid inputs fails". Safe: nothing raises a fault. -/
inductive Fault where
  deriving DecidableEq, Repr

/-- The reasons a step has no meaning. -/
inductive Refusal where
  /-- An arm of `exec` whose instruction has no meaning yet; no arm raises it. Safe. -/
  | notModelled (mnemonic : String)
  /-- Raised by a bus access that is not 32 bits wide (R54, U3: "a model refuses it (it has no step)"). Safe. -/
  | accessWidth (bytes : Nat)
  /-- Raised by a bus access at an offset that is no multiple of 4 (R54, U3). Safe. -/
  | misalignedOffset (off : BitVec 9)
  /-- Raised by a bus access outside the window (R50: "addresses outside the window are not the core's"; U4: `refuse`). Safe. -/
  | outsideWindow (addr : Nat)
  deriving DecidableEq, Repr

/-- R38, R200: the state after a hardware reset, given the draw of each UNSPEC register. The control fields are 0; nothing is pending on
the bus. -/
def State.resetWith (draw : Config.ResetReg → Word) : State where
  x := draw .x
  y := draw .y
  z := draw .z
  r := draw .r
  w := Vector.ofFn fun j => draw (.w j)
  sc := 0
  wv := Vector.ofFn fun i => draw (.wv i)
  rc := 0
  h := Vector.ofFn fun i => draw (.h i)
  hv := false
  dg := Vector.ofFn fun k => draw (.dg k)
  dv := false
  err := false
  ecode := .none
  bus := []
  rdata := none
  resets := 0

/-- The machine right after reset: `resetWith` at the first draw of the free values (assumption log 1). -/
def State.reset : State := State.resetWith (Config.resetDraw 0)

end Sys2Proof.Machine
end

