-- ==== Sys2Proof/Machine/Flags.lean ====
section
/-! DEFINITION. The STATUS register (R34 of 10_state.md): every flag and counter as the host reads it, and what a write does. -/

namespace Sys2Proof.Machine

/-- The number of an error code (R181 of 60_exceptions.md). -/
def ecodeBits : ECode → BitVec 4
  | .none => 0
  | .illegalOpcode => 1
  | .badField => 2
  | .notInit => 3
  | .seqSched => 4
  | .seqRound => 5
  | .seqAccum => 6
  | .busWrite => 7

/-- A 1-bit flag as the lowest bit of a word. -/
def flagWord (b : Bool) : Word := if b then 1#32 else 0#32

/-- R34, what a read of STATUS returns: `zext_32(RC) << 16 | zext_32(SC) << 8 | zext_32(ECODE) << 4 | ERR << 2 | DV << 1 | HV`. The
reserved bits 3, 15 and 31:23 read as 0. -/
def statusWord (s : State) : Word :=
  BitVec.ofNat 32 s.rc.val <<< 16 ||| BitVec.ofNat 32 s.sc.val <<< 8 ||| (ecodeBits s.ecode).setWidth 32 <<< 4
    ||| flagWord s.err <<< 2 ||| flagWord s.dv <<< 1 ||| flagWord s.hv

end Sys2Proof.Machine
end

