-- ==== Sys2Proof/Machine/Operands.lean ====
section
/-! DEFINITION. The operand forms and the word functions every unit computes with: the immediate amount (R81 of 30_encoding.md), the
word functions of R110 (41_word_alu.md), and the character of a digest nibble (R160 of 45_encoder.md). -/

namespace Sys2Proof.Machine

/-- R81: the amount n of ROTR and SHR, `zext_32(IMM[4:0])`, 0 to 31. -/
def amount (imm : BitVec 8) : Nat := (imm.extractLsb' 0 5).toNat

/-- R110: circular right rotation of a 32-bit word by n, 0 ≤ n ≤ 31; `rotr(x, 0) = x`. -/
def rotr (x : Word) (n : Nat) : Word := if n = 0 then x else (x >>> n) ||| (x <<< (32 - n))

/-- R110: logical right shift, zero-filled. -/
def shr (x : Word) (n : Nat) : Word := x >>> n

/-- R110: choice, with the 32-bit complement and no mask (C3 of 90_conflicts.md). -/
def ch (x y z : Word) : Word := (x &&& y) ^^^ (~~~x &&& z)

/-- R110: majority. -/
def maj (x y z : Word) : Word := (x &&& y) ^^^ (x &&& z) ^^^ (y &&& z)

/-- R110: the "Sigma 0" function of the compression round. -/
def bsig0 (x : Word) : Word := rotr x 2 ^^^ rotr x 13 ^^^ rotr x 22

/-- R110: the "Sigma 1" function of the compression round. -/
def bsig1 (x : Word) : Word := rotr x 6 ^^^ rotr x 11 ^^^ rotr x 25

/-- R110: the "sigma 0" function of the schedule. -/
def ssig0 (x : Word) : Word := rotr x 7 ^^^ rotr x 18 ^^^ shr x 3

/-- R110: the "sigma 1" function of the schedule. -/
def ssig1 (x : Word) : Word := rotr x 17 ^^^ rotr x 19 ^^^ shr x 10

/-- R160: the ASCII code of a nibble, '0' to '9' or 'a' to 'f' (codes supplied from general knowledge, G3; assumption log 8). -/
def hexChar (nib : BitVec 4) : Byte :=
  if nib ≤ 9#4 then 0x30#8 + nib.setWidth 8 else 0x61#8 + nib.setWidth 8 - 10#8

/-- R160: nib(j), nibble j of the eight words of H, the most significant nibble of H[0] first. -/
def digestNibble (h : Vector Word 8) (j : Fin 64) : BitVec 4 :=
  (h[j.val >>> 3]'(by have := j.isLt; omega)).extractLsb' (28 - 4 * (j.val % 8)) 4

/-- R160: c[j], character j of the digest. -/
def digestChar (h : Vector Word 8) (j : Fin 64) : Byte := hexChar (digestNibble h j)

end Sys2Proof.Machine
end

