-- ==== Sys2Proof/Machine/Ops.lean ====
section
/-! DEFINITION. The named operations the commands and the bus share: recording an error, which is this core's whole exception entry
(R182, R186 of 60_exceptions.md), and clearing it (R187); the expansion step (R131), the round step (R141) and the accumulate step
(R151), which are never commands on their own; and the two accesses to the register window (R52, R53 of 20_memory.md), all but the
write of CMD. -/

namespace Sys2Proof.Machine

/-- R182, RecordError: ECODE keeps the first code since ERR was cleared. -/
def recordError (c : ECode) (s : State) : State :=
  { s with err := true, ecode := if s.err then s.ecode else c }

/-- R8, `raise CmdError(code)`: record the error and end the command or bus write with no other state change. R186: there is no trap
entry beyond this; the machine goes on. -/
def raiseError (c : ECode) (s : State) : Host.Outcome State Fault Refusal := .next (recordError c s)

/-- R187: the return from an error, "which sets ERR and ECODE to 0". -/
def clearError (s : State) : State := { s with err := false, ecode := .none }

/-- R34: a write of STATUS clears the error if bit 2 is set; "every other bit of v is ignored". -/
def writeStatus (v : Word) (s : State) : State := if v.getLsbD 2 then clearError s else s

/-- Every ALU command writes R and nothing else (41_word_alu.md). -/
def setResult (v : Word) (s : State) : State := { s with r := v }

/-- R130, MsgIn: append one block word to the schedule. -/
def msgIn (v : Word) (s : State) : Host.Outcome State Fault Refusal :=
  if h : 16 ≤ s.sc.val then raiseError .seqSched s
  else .next { s with w := s.w.set s.sc.val v (by omega), sc := ⟨s.sc.val + 1, by omega⟩ }

/-- R131, ExpandStep, at t = SC. It requires 16 ≤ t ≤ 63, which every caller has checked. -/
def expandStep (s : State) : State :=
  if h : 16 ≤ s.sc.val ∧ s.sc.val < 64 then
    { s with
      w := s.w.set s.sc.val (s.w[s.sc.val - 16] + ssig0 s.w[s.sc.val - 15] + s.w[s.sc.val - 7] + ssig1 s.w[s.sc.val - 2])
      sc := ⟨s.sc.val + 1, by omega⟩ }
  else s

/-- `step` done `n` times. -/
def repeatStep (step : State → State) : Nat → State → State
  | 0, s => s
  | n + 1, s => repeatStep step n (step s)

/-- R133, `while SC < 64: ExpandStep()`: the steps t = SC, SC+1, …, 63. -/
def expandRest (s : State) : State := repeatStep expandStep (64 - s.sc.val) s

/-- R141, the new working variables of one round from the old ones, the round's constant and its schedule word; all right-hand sides
read the old values. -/
def roundVars (v : Vector Word 8) (k w : Word) : Vector Word 8 :=
  let a := v[0]
  let b := v[1]
  let c := v[2]
  let d := v[3]
  let e := v[4]
  let f := v[5]
  let g := v[6]
  let h := v[7]
  let t1 := h + bsig1 e + ch e f g + k + w
  let t2 := bsig0 a + maj a b c
  #v[t1 + t2, a, b, c, d + t1, e, f, g]

/-- R141, the working variables a round starts from: round 0 first loads them from H. -/
def roundInput (s : State) : Vector Word 8 := if s.rc.val = 0 then s.h else s.wv

/-- R141, RoundStep, at i = RC. It requires i ≤ 63, which every caller has checked. -/
def roundStep (s : State) : State :=
  if h : s.rc.val < 64 then
    { s with wv := roundVars (roundInput s) K[s.rc.val] s.w[s.rc.val], rc := ⟨s.rc.val + 1, by omega⟩ }
  else s

/-- R143, `while RC < 64: RoundStep()`: the rounds RC to 63. -/
def roundsRest (s : State) : State := repeatStep roundStep (64 - s.rc.val) s

/-- R151, AccumulateStep: H[k] <- H[k] + WV[k] for k = 0..7, then RC <- 0 and SC <- 0. -/
def accumulateStep (s : State) : State :=
  { s with h := Vector.ofFn fun k => s.h[k] + s.wv[k], rc := 0, sc := 0 }

/-- R160: DG[k] is c[4k], c[4k+1], c[4k+2], c[4k+3], the first in bits 31:24. -/
def digestWords (h : Vector Word 8) : Vector Word 16 :=
  Vector.ofFn fun k =>
    digestChar h ⟨4 * k.val, by omega⟩ ++ digestChar h ⟨4 * k.val + 1, by omega⟩ ++ digestChar h ⟨4 * k.val + 2, by omega⟩
      ++ digestChar h ⟨4 * k.val + 3, by omega⟩

/-- R52, `MemRead(off, 4)`: the value a bus read of offset `off` returns. CMD (0x000), MSG_IN (0x020) and every unmapped offset read
as 0. It is a function to a value: a read changes no state. -/
def memRead (off : Nat) (s : State) : Word :=
  if off = 0x004 then statusWord s
  else if off = 0x010 then s.x
  else if off = 0x014 then s.y
  else if off = 0x018 then s.z
  else if off = 0x01C then s.r
  else if h : 0x040 ≤ off ∧ off ≤ 0x05C then s.h[(off - 0x040) >>> 2]
  else if h : 0x060 ≤ off ∧ off ≤ 0x07C then s.wv[(off - 0x060) >>> 2]
  else if h : 0x080 ≤ off ∧ off ≤ 0x0BC then s.dg[(off - 0x080) >>> 2]
  else if h : 0x100 ≤ off ∧ off ≤ 0x1FC then s.w[(off - 0x100) >>> 2]
  else 0#32

/-- R53, `MemWrite(off, 4, v)` at every offset but CMD's 0x000. -/
def registerWrite (off : Nat) (v : Word) (s : State) : Host.Outcome State Fault Refusal :=
  if off = 0x004 then .next (writeStatus v s)
  else if off = 0x010 then .next { s with x := v }
  else if off = 0x014 then .next { s with y := v }
  else if off = 0x018 then .next { s with z := v }
  else if off = 0x020 then msgIn v s
  else raiseError .busWrite s

end Sys2Proof.Machine
end

