-- ==== Sys2Proof/Machine/Chain.lean ====
section
/-! DEFINITION. The chainer and state accumulator's commands (44_chain.md). -/

namespace Sys2Proof.Machine

/-- ACCUM (R152): fold the compressed block into the chaining value. -/
def execAccum (s : State) : Host.Outcome State Fault Refusal :=
  if s.rc.val ≠ 64 then raiseError .seqAccum s else .next (accumulateStep s)

/-- BLOCK (R153): expand, compress and accumulate the rest of the block. All checks come before any write. -/
def execBlock (s : State) : Host.Outcome State Fault Refusal :=
  if s.rc.val = 0 ∧ s.hv = false then raiseError .notInit s
  else if s.sc.val < 16 then raiseError .seqSched s
  else .next (accumulateStep (roundsRest (expandRest s)))

end Sys2Proof.Machine
end

