-- ==== Sys2Proof/Machine/Compress.lean ====
section
/-! DEFINITION. The compression datapath's commands (43_compress.md). -/

namespace Sys2Proof.Machine

/-- RND1 (R142): one compression round, round number RC. NOT_INIT is checked before SEQ_ROUND (R184). -/
def execRnd1 (s : State) : Host.Outcome State Fault Refusal :=
  if s.rc.val = 0 ∧ s.hv = false then raiseError .notInit s
  else if s.rc.val = 64 ∨ s.sc.val ≤ s.rc.val then raiseError .seqRound s
  else .next (roundStep s)

/-- RNDALL (R143): every remaining round; at RC = 64 it does nothing. -/
def execRndall (s : State) : Host.Outcome State Fault Refusal :=
  if s.rc.val = 0 ∧ s.hv = false then raiseError .notInit s
  else if s.sc.val < 64 then raiseError .seqRound s
  else .next (roundsRest s)

end Sys2Proof.Machine
end

