-- ==== Sys2Proof/Machine/Control.lean ====
section
/-! DEFINITION. The control commands (40_control.md). -/

namespace Sys2Proof.Machine

/-- NOP (R100): does nothing. -/
def execNop (s : State) : Host.Outcome State Fault Refusal := .next s

/-- SRST (R101): every control field to 0; the datapath registers keep their values. -/
def execSrst (s : State) : Host.Outcome State Fault Refusal :=
  .next { s with sc := 0, rc := 0, hv := false, dv := false, err := false, ecode := .none }

/-- INIT (R102): H <- H_INITIAL, HV <- 1, SC <- 0, RC <- 0. Legal in every state. -/
def execInit (s : State) : Host.Outcome State Fault Refusal :=
  .next { s with h := H_INITIAL, hv := true, sc := 0, rc := 0 }

end Sys2Proof.Machine
end

