-- ==== Sys2Proof/Machine/Encoder.lean ====
section
/-! DEFINITION. The digest encoder's command (45_encoder.md). -/

namespace Sys2Proof.Machine

/-- ENCODE (R161): DG <- the 64 characters of H (R160), DV <- 1. -/
def execEncode (s : State) : Host.Outcome State Fault Refusal :=
  if s.hv = false then raiseError .notInit s else .next { s with dg := digestWords s.h, dv := true }

end Sys2Proof.Machine
end

