-- ==== Sys2Proof/Machine/Schedule.lean ====
section
/-! DEFINITION. The message schedule expander's commands (42_schedule.md); the push of a block word is `msgIn` (R130). -/

namespace Sys2Proof.Machine

/-- EXP1 (R132): expand one schedule word. -/
def execExp1 (s : State) : Host.Outcome State Fault Refusal :=
  if s.sc.val < 16 ∨ s.sc.val = 64 then raiseError .seqSched s else .next (expandStep s)

/-- EXPALL (R133): expand every remaining schedule word; at SC = 64 it does nothing. -/
def execExpall (s : State) : Host.Outcome State Fault Refusal :=
  if s.sc.val < 16 then raiseError .seqSched s else .next (expandRest s)

end Sys2Proof.Machine
end

