-- ==== Sys2Proof/Machine/WordAlu.lean ====
section
/-! DEFINITION. The word ALU (41_word_alu.md): each command writes R from X, Y, Z and raises no error of its own. -/

namespace Sys2Proof.Machine

/-- ROTR n (R111): R <- rotr(X, n). -/
def execRotr (imm : BitVec 8) (s : State) : Host.Outcome State Fault Refusal := .next (setResult (rotr s.x (amount imm)) s)

/-- SHR n (R112): R <- shr(X, n). -/
def execShr (imm : BitVec 8) (s : State) : Host.Outcome State Fault Refusal := .next (setResult (shr s.x (amount imm)) s)

/-- CH (R113): R <- ch(X, Y, Z). -/
def execCh (s : State) : Host.Outcome State Fault Refusal := .next (setResult (ch s.x s.y s.z) s)

/-- MAJ (R114): R <- maj(X, Y, Z). -/
def execMaj (s : State) : Host.Outcome State Fault Refusal := .next (setResult (maj s.x s.y s.z) s)

/-- BSIG0 (R115): R <- bsig0(X). -/
def execBsig0 (s : State) : Host.Outcome State Fault Refusal := .next (setResult (bsig0 s.x) s)

/-- BSIG1 (R116): R <- bsig1(X). -/
def execBsig1 (s : State) : Host.Outcome State Fault Refusal := .next (setResult (bsig1 s.x) s)

/-- SSIG0 (R117): R <- ssig0(X). -/
def execSsig0 (s : State) : Host.Outcome State Fault Refusal := .next (setResult (ssig0 s.x) s)

/-- SSIG1 (R118): R <- ssig1(X). -/
def execSsig1 (s : State) : Host.Outcome State Fault Refusal := .next (setResult (ssig1 s.x) s)

/-- ADD (R119): R <- X + Y modulo 2^32; no carry, no overflow, no flag. -/
def execAdd (s : State) : Host.Outcome State Fault Refusal := .next (setResult (s.x + s.y) s)

end Sys2Proof.Machine
end

