-- ==== Sys2Proof/Machine/Dispatch.lean ====
section
/-! DEFINITION. The rule named for each opcode in R83 (30_encoding.md): one arm a command, one meaning an arm. -/

namespace Sys2Proof.Machine

def exec (i : Instr) (s : State) : Host.Outcome State Fault Refusal :=
  match i with
  | .nop => Sys2Proof.Machine.execNop s
  | .srst => Sys2Proof.Machine.execSrst s
  | .init => Sys2Proof.Machine.execInit s
  | .rotr imm => Sys2Proof.Machine.execRotr imm s
  | .shr imm => Sys2Proof.Machine.execShr imm s
  | .ch => Sys2Proof.Machine.execCh s
  | .maj => Sys2Proof.Machine.execMaj s
  | .bsig0 => Sys2Proof.Machine.execBsig0 s
  | .bsig1 => Sys2Proof.Machine.execBsig1 s
  | .ssig0 => Sys2Proof.Machine.execSsig0 s
  | .ssig1 => Sys2Proof.Machine.execSsig1 s
  | .add => Sys2Proof.Machine.execAdd s
  | .exp1 => Sys2Proof.Machine.execExp1 s
  | .expall => Sys2Proof.Machine.execExpall s
  | .rnd1 => Sys2Proof.Machine.execRnd1 s
  | .rndall => Sys2Proof.Machine.execRndall s
  | .accum => Sys2Proof.Machine.execAccum s
  | .block => Sys2Proof.Machine.execBlock s
  | .encode => Sys2Proof.Machine.execEncode s

end Sys2Proof.Machine
end

