-- ==== Sys2Proof/Machine/Window.lean ====
section
/-! DEFINITION. What one event on the host's side does: the write of CMD, which executes a command (R85 of 30_encoding.md), the bus
accesses that reach the window and those that do not (R50 to R54 of 20_memory.md), and the hardware reset (R200 of
70_reset_and_hazards.md). Each is one atomic step (R205). -/

namespace Sys2Proof.Machine

/-- The code of a decode error (R84, R181). -/
def decodeCode : DecodeError → ECode
  | .illegalOpcode => .illegalOpcode
  | .badField => .badField

/-- R85, `Execute(v)`: the decode checks, then the rule named for the opcode. -/
def execute (v : Word) (s : State) : Host.Outcome State Fault Refusal :=
  match decode v with
  | .ok i => exec i s
  | .error e => raiseError (decodeCode e) s

/-- R53, `MemWrite(off, 4, v)`. -/
def memWrite (off : Nat) (v : Word) (s : State) : Host.Outcome State Fault Refusal :=
  match off with
  | 0x000 => execute v s
  | _ => registerWrite off v s

/-- The offset an access reaches: R54 admits only 32-bit accesses at offsets that are multiples of 4, R50 only those of the window. Any
other access is refused by name: "a model refuses it (it has no step)". -/
def accessOffset (addr : BusAddr) (bytes : Nat) : Except Refusal Nat :=
  match addr with
  | .outside a => .error (.outsideWindow a)
  | .window off =>
    if bytes ≠ 4 then .error (.accessWidth bytes)
    else if off.toNat % 4 ≠ 0 then .error (.misalignedOffset off)
    else .ok off.toNat

/-- Where a byte address of the platform lies, for a core whose window starts at `base` (R50: from BASE to BASE + 0x1FF). -/
def addrAt (base addr : Nat) : BusAddr :=
  if base ≤ addr ∧ addr < base + Config.windowBytes then .window (BitVec.ofNat 9 (addr - base)) else .outside addr

/-- Where a byte address of the platform lies for this core (parameter BASE of R5). -/
def hostAddr (addr : Nat) : BusAddr := addrAt Config.base addr

/-- R200: the state after a hardware reset in the middle of a run: every register at its reset value, each UNSPEC one at a new draw
(R203, "one draw per register" at each reset). The events still to come stay to come: they are issued after the release. -/
def hardReset (s : State) : State :=
  { State.resetWith (Config.resetDraw (s.resets + 1)) with bus := s.bus, resets := s.resets + 1 }

/-- One event, performed completely (R59, R205): a read returns its value and changes nothing of the core (R52), a write performs R53 and
returns no value, a reset is R200. -/
def perform (e : HostEvent) (s : State) : Host.Outcome State Fault Refusal :=
  match e with
  | .read addr bytes =>
    match accessOffset addr bytes with
    | .ok off => .next { s with rdata := some (memRead off s) }
    | .error r => .refused r
  | .write addr bytes v =>
    match accessOffset addr bytes with
    | .ok off => memWrite off v { s with rdata := none }
    | .error r => .refused r
  | .reset => .next (hardReset s)

/-- With nothing on the bus nothing changes: SC and RC "do not advance on their own" (R190) and "All state survives" (R194). -/
def idle (s : State) : Host.Outcome State Fault Refusal := .next s

/-- R86: `WR off, v`, a bus write of v at offset off. -/
def wr (off : BitVec 9) (v : Word) : HostEvent := .write (.window off) 4 v

/-- R86: `RD off`, a bus read at off. -/
def rd (off : BitVec 9) : HostEvent := .read (.window off) 4

/-- The bus write that issues a command word, `WR 0x000, word` (R86). -/
def cmdWrite (v : Word) : HostEvent := wr 0x000#9 v

end Sys2Proof.Machine
end

