-- ==== Sys2Proof/Machine/Step.lean ====
section
/-! DEFINITION. One step of the machine: "A model steps once per bus transaction" (R21 of 10_state.md). -/

namespace Sys2Proof.Machine

/-- R59: the events are performed one at a time, in the order the bus delivers them, each completely before the next begins. -/
def step (s : State) : Host.Outcome State Fault Refusal :=
  match s.bus with
  | [] => idle s
  | e :: rest => perform e { s with bus := rest }

/-- The core fetches nothing (R62): its next instruction is the command word of the bus write that comes next. So the word is put there,
as a write of CMD before the events already to come; everything else stays (assumption log 2). -/
def State.withFetchWord (s : State) (nbits w : Nat) : State :=
  { s with bus := cmdWrite (BitVec.ofNat 32 (w % 2 ^ nbits)) :: s.bus }

end Sys2Proof.Machine
end

