-- ==== Sys2Proof/Machine/HostProcedure.lean ====
section
/-! DEFINITION. What a correct host sends (49_host_procedure.md) and the assembly names of the bus accesses (R86 of 30_encoding.md). No
rule of this file is performed by the core: it takes these events as its input, and the statements use them. -/

namespace Sys2Proof.Machine

/-- R86: a command written by its mnemonic is the bus write of its word. -/
def command (i : Instr) : HostEvent := cmdWrite (Sys2Proof.encode i)

/-- R86, `LDX v`. -/
def ldx (v : Word) : HostEvent := wr 0x010#9 v

/-- R86, `LDY v`. -/
def ldy (v : Word) : HostEvent := wr 0x014#9 v

/-- R86, `LDZ v`. -/
def ldz (v : Word) : HostEvent := wr 0x018#9 v

/-- R86, `PUSHW v`. -/
def pushw (v : Word) : HostEvent := wr 0x020#9 v

/-- R86, `CLRERR`. -/
def clrerr : HostEvent := wr 0x004#9 0x00000004#32

/-- R86, `RDR`. -/
def rdr : HostEvent := rd 0x01C#9

/-- R86, `RDSTAT`. -/
def rdstat : HostEvent := rd 0x004#9

/-- R86, `RDH i`. -/
def rdh (i : Fin 8) : HostEvent := rd (BitVec.ofNat 9 (0x040 + 4 * i.val))

/-- R86, `RDDG k`. -/
def rddg (k : Fin 16) : HostEvent := rd (BitVec.ofNat 9 (0x080 + 4 * k.val))

/-- R171: a length in bits as 8 bytes, modulo 2^64, the most significant byte first. -/
def be64 (n : Nat) : List Byte := [7, 6, 5, 4, 3, 2, 1, 0].map fun i => BitVec.ofNat 8 ((n % 2 ^ 64) >>> (8 * i))

/-- R170: k = (55 − L) mod 64, the number of zero bytes. -/
def padZeros (len : Nat) : Nat := (119 - len % 64) % 64

/-- R170: the padded message, B || 0x80 || k bytes 0x00 || be64(L * 8). -/
def pad (msg : List Byte) : List Byte :=
  msg ++ 0x80#8 :: (List.replicate (padZeros msg.length) 0x00#8 ++ be64 (msg.length * 8))

/-- R170: N = floor((L + 8) / 64) + 1 blocks. -/
def blockCount (len : Nat) : Nat := (len + 8) / 64 + 1

/-- R172: word j of block k of a padded message, the big-endian interpretation of 4 consecutive bytes. -/
def blockWord (p : List Byte) (k j : Nat) : Word :=
  p.getD (64 * k + 4 * j) 0 ++ p.getD (64 * k + 4 * j + 1) 0 ++ p.getD (64 * k + 4 * j + 2) 0 ++ p.getD (64 * k + 4 * j + 3) 0

/-- R172: the blocks of a message, each as the 16 words the host pushes. -/
def messageBlocks (msg : List Byte) : List (Vector Word 16) :=
  (List.range (blockCount msg.length)).map fun k => Vector.ofFn fun j => blockWord (pad msg) k j.val

/-- R173: how the host ends a block: BLOCK, or in its place `EXPALL; RNDALL; ACCUM`. -/
def finishBlock (whole : Bool) : List HostEvent :=
  if whole then [command .block] else [command .expall, command .rndall, command .accum]

/-- R173: one block, its 16 words pushed in the order j = 0, 1, …, 15, and its end. -/
def blockSequence (b : Vector Word 16 × Bool) : List HostEvent := b.1.toList.map pushw ++ finishBlock b.2

/-- R154: a message from INIT on: INIT, then every block in order. -/
def foldSequence (blocks : List (Vector Word 16 × Bool)) : List HostEvent :=
  command .init :: blocks.flatMap blockSequence

/-- R173: the digest sequence of a message up to ENCODE. -/
def hashSequence (msg : List Byte) : List HostEvent :=
  foldSequence ((messageBlocks msg).map fun b => (b, true)) ++ [command .encode]

/-- R173: the whole digest sequence of a message, with the 16 reads of DG and the read of STATUS. -/
def digestSequence (msg : List Byte) : List HostEvent :=
  hashSequence msg ++ ((List.finRange 16).map rddg ++ [rdstat])

end Sys2Proof.Machine
end

