-- ==== Sys2Proof/Safety.lean ====
section
/-! DEFINITION. The terms claims are stated in: SHA-256 as the source's text gives it (42_schedule.md, 43_compress.md, 44_chain.md),
with no counter and no command; the invariants of the core's state (R36 of 10_state.md and what R26, R141 and R160 keep true); and what
counts as a clean run (U14 of 93_implementation_defined.md). -/

namespace Sys2Proof.Sha256

open Sys2Proof.Machine

/-- §4.3, quoted in 42_schedule.md: words 0 to 15 are the block's; `w[i] = (w[i-16] + littleSigma0(w[i-15]) + w[i-7] +
littleSigma1(w[i-2])) mod 2^32`. -/
def schedWord (b : Vector Word 16) (i : Nat) : Word :=
  if h : i < 16 then b[i]
  else schedWord b (i - 16) + ssig0 (schedWord b (i - 15)) + schedWord b (i - 7) + ssig1 (schedWord b (i - 2))
termination_by i
decreasing_by all_goals omega

/-- Round constant i (R140). -/
def roundConst (i : Nat) : Word := K[i]?.getD 0

/-- §4.4, quoted in 43_compress.md: the working variables after rounds 0 to n−1, from the input state and the schedule. -/
def rounds (h : Vector Word 8) (w : Nat → Word) : Nat → Vector Word 8
  | 0 => h
  | n + 1 => roundVars (rounds h w n) (roundConst n) (w n)

/-- §4.4: "the new HashState is the input state added element-wise (mod 2^32) to the final working variables". -/
def compress (b : Vector Word 16) (h : Vector Word 8) : Vector Word 8 :=
  Vector.ofFn fun k => h[k] + (rounds h (schedWord b) 64)[k]

/-- §4.5, quoted in 44_chain.md: `state₀ = H_INITIAL`; `state_{k+1} = Compressor(ScheduleExpander(Block_k), state_k)`. -/
def hash (blocks : List (Vector Word 16)) : Vector Word 8 := blocks.foldl (fun h b => compress b h) H_INITIAL

end Sys2Proof.Sha256

namespace Sys2Proof.Machine

/-- Schedule word i of a state, as a function of its index. -/
def State.schedule (s : State) (i : Nat) : Word := s.w[i]?.getD 0

/-- The block words W[0..15] of a state. -/
def State.blockWords (s : State) : Vector Word 16 := Vector.ofFn fun j => s.w[j.val]

/-- R36: "`RC <= SC <= 64`; `RC > 0` implies `HV = 1`; `ECODE ≠ 0` exactly when `ERR = 1`" (SC ≤ 64 is SC's type). -/
structure State.Inv (s : State) : Prop where
  rc_le_sc : s.rc.val ≤ s.sc.val
  hv_of_rc : 0 < s.rc.val → s.hv = true
  code_iff_err : s.ecode ≠ .none ↔ s.err = true

/-- R26, R131: every valid word from W[16] on is the recurrence's value of the words below it. -/
def State.ScheduleOk (s : State) : Prop :=
  ∀ i, 16 ≤ i → i < s.sc.val →
    s.schedule i = s.schedule (i - 16) + ssig0 (s.schedule (i - 15)) + s.schedule (i - 7) + ssig1 (s.schedule (i - 2))

/-- R28, R141: once a round is done, the working variables are those of rounds 0 to RC−1 from the chaining value in H. -/
def State.RoundsOk (s : State) : Prop := 0 < s.rc.val → s.wv = Sha256.rounds s.h s.schedule s.rc.val

/-- R160: an ASCII code of '0' to '9' or 'a' to 'f'. -/
def IsHexChar (c : Byte) : Prop := (0x30#8 ≤ c ∧ c ≤ 0x39#8) ∨ (0x61#8 ≤ c ∧ c ≤ 0x66#8)

/-- Character j of the digest buffer: DG[j >> 2], "the first character of each DG word in bits 31:24" (R160). -/
def State.digestCharacter (s : State) (j : Fin 64) : Byte :=
  (s.dg[j.val / 4]'(by have := j.isLt; omega)).extractLsb' (24 - 8 * (j.val % 4)) 8

/-- R32, R160: while DV = 1 the digest buffer holds lowercase hexadecimal characters only. -/
def State.DigestOk (s : State) : Prop := s.dv = true → ∀ j, IsHexChar (s.digestCharacter j)

/-- All that every run keeps true. -/
structure State.Good (s : State) : Prop where
  inv : s.Inv
  schedule : s.ScheduleOk
  rounds : s.RoundsOk
  digest : s.DigestOk

/-- U14: a run of the host is valid when "ERR = 0 at the end", so that no refused access passed unnoticed. -/
def State.Clean (s : State) : Prop := s.err = false

/-- Two states that agree on every control field of R38's table and on what is to come on the bus; their datapath registers (X, Y, Z, R,
W, H, WV, DG) may differ. -/
structure State.SameControl (s s' : State) : Prop where
  sc : s.sc = s'.sc
  rc : s.rc = s'.rc
  hv : s.hv = s'.hv
  dv : s.dv = s'.dv
  err : s.err = s'.err
  ecode : s.ecode = s'.ecode
  bus : s.bus = s'.bus

/-- The block word an event pushes, if it is a push (R130, `PUSHW v`). -/
def pushedWord : HostEvent → Option Word
  | .write addr bytes v => if addr = .window 0x020#9 ∧ bytes = 4 then some v else none
  | _ => none

/-- The decode errors of a command that takes no immediate (R84, R85): with its OPC, a word whose RSV or IMM is not 0 records BAD_FIELD
and does nothing else. -/
def BadFieldsRefused (opc : BitVec 8) (s : State) : Prop :=
  ∀ v, opcField v = opc → rsvField v ≠ 0 ∨ immField v ≠ 0 → execute v s = .next (recordError .badField s)

/-- `i` answers the next state `t`, as a command and as the bus write of its word to CMD (R85). -/
def Runs (i : Instr) (word : Word) (s t : State) : Prop := exec i s = .next t ∧ execute word s = .next t

/-- The command of a word records the error `c` and does nothing else (R8, R183). -/
def Raises (i : Instr) (word : Word) (s : State) (c : ECode) : Prop := Runs i word s (recordError c s)

end Sys2Proof.Machine
end

