-- ==== Sys2Proof/Certificates/Slice0/Obligations.lean ====
section
/-! DEFINITION. The statements for the provers, in the order of the spec's files: reset and the bus window, the command word, the
error flag, the commands family by family, the whole-machine rules, and the digest. Each docstring names the rule it formalises; a
clause that rests on a choice of the model says so and names the assumption log's entry. -/

open Sys2Proof Sys2Proof.Machine

/-! ### State, reset and the window (10_state.md, 20_memory.md, 70_reset_and_hazards.md) -/

/-- R38: after a hardware reset the control fields are 0 and every other register holds its own UNSPEC draw, whatever the draws are; and
the table's SRST column. `State.reset` is such a state. -/
def Obligations.ResetValues : Prop :=
  (∀ draw : Config.ResetReg → Word,
    let s := State.resetWith draw
    s.x = draw .x ∧ s.y = draw .y ∧ s.z = draw .z ∧ s.r = draw .r ∧ (∀ j : Fin 64, s.w[j] = draw (.w j)) ∧
    (∀ i : Fin 8, s.h[i] = draw (.h i)) ∧ (∀ i : Fin 8, s.wv[i] = draw (.wv i)) ∧ (∀ k : Fin 16, s.dg[k] = draw (.dg k)) ∧
    s.sc = 0 ∧ s.rc = 0 ∧ s.hv = false ∧ s.dv = false ∧ s.err = false ∧ s.ecode = .none) ∧
  (∃ draw, State.reset = State.resetWith draw) ∧
  ∀ s : State, ∃ t, exec .srst s = .next t ∧ t.sc = 0 ∧ t.rc = 0 ∧ t.hv = false ∧ t.dv = false ∧ t.err = false ∧ t.ecode = .none ∧
    t.x = s.x ∧ t.y = s.y ∧ t.z = s.z ∧ t.r = s.r ∧ t.w = s.w ∧ t.h = s.h ∧ t.wv = s.wv ∧ t.dg = s.dg

/-- R200, R203: a reset in the middle of a run leaves every control field at 0 and every other register at a fresh draw, whatever the
state was. That the events behind it stay to come is the model's choice (assumption log 2), and so is how a later reset's draws are
numbered (assumption log 1). -/
def Obligations.HardwareResetDrawsAnew : Prop :=
  ∀ (s : State) (rest : List HostEvent), s.bus = .reset :: rest →
    ∃ t, step s = .next t ∧ statusWord t = 0 ∧ t.sc = 0 ∧ t.rc = 0 ∧ t.ecode = .none ∧ t.bus = rest ∧
      t.x = Config.resetDraw (s.resets + 1) .x ∧ t.y = Config.resetDraw (s.resets + 1) .y ∧
      t.z = Config.resetDraw (s.resets + 1) .z ∧ t.r = Config.resetDraw (s.resets + 1) .r ∧
      (∀ j : Fin 64, t.w[j] = Config.resetDraw (s.resets + 1) (.w j)) ∧
      (∀ i : Fin 8, t.h[i] = Config.resetDraw (s.resets + 1) (.h i) ∧ t.wv[i] = Config.resetDraw (s.resets + 1) (.wv i)) ∧
      (∀ k : Fin 16, t.dg[k] = Config.resetDraw (s.resets + 1) (.dg k)) ∧ t.resets = s.resets + 1

/-- R34: the fields a read of STATUS returns, its reserved bits, what a write does, and that it is 0 after a
reset. -/
def Obligations.StatusRegisterFields : Prop :=
  ∀ s : State,
    (let v := memRead 0x004 s
     v.getLsbD 0 = s.hv ∧ v.getLsbD 1 = s.dv ∧ v.getLsbD 2 = s.err ∧ v.getLsbD 3 = false ∧ v.extractLsb' 4 4 = ecodeBits s.ecode ∧
     (v.extractLsb' 8 7).toNat = s.sc.val ∧ v.getLsbD 15 = false ∧ (v.extractLsb' 16 7).toNat = s.rc.val ∧
     v.extractLsb' 23 9 = 0#9) ∧
    ∀ v : Word, (v.getLsbD 2 = true → memWrite 0x004 v s = .next { s with err := false, ecode := .none }) ∧
      (v.getLsbD 2 = false → memWrite 0x004 v s = .next s) ∧ ∀ draw, memRead 0x004 (State.resetWith draw) = 0

/-- R52: what a bus read of each offset returns. That it changes no state is `memRead`'s type, and BusAccessesStep says it of the step. -/
def Obligations.WindowReadMap : Prop :=
  ∀ s : State,
    memRead 0x000 s = 0 ∧ memRead 0x020 s = 0 ∧ memRead 0x004 s = statusWord s ∧ memRead 0x010 s = s.x ∧ memRead 0x014 s = s.y ∧
    memRead 0x018 s = s.z ∧ memRead 0x01C s = s.r ∧
    (∀ i : Fin 8, memRead (0x040 + 4 * i.val) s = s.h[i]) ∧ (∀ i : Fin 8, memRead (0x060 + 4 * i.val) s = s.wv[i]) ∧
    (∀ k : Fin 16, memRead (0x080 + 4 * k.val) s = s.dg[k]) ∧ (∀ j : Fin 64, memRead (0x100 + 4 * j.val) s = s.w[j]) ∧
    ∀ off, off = 0x008 ∨ off = 0x00C ∨ (0x024 ≤ off ∧ off ≤ 0x03C) ∨ (0x0C0 ≤ off ∧ off ≤ 0x0FC) → memRead off s = 0

/-- R53: a bus write of each offset: CMD executes, X, Y and Z take the value (and no other register changes), STATUS clears the error
with bit 2 set, MSG_IN pushes, and every other offset records BUS_WRITE and changes nothing else. -/
def Obligations.WindowWriteMap : Prop :=
  ∀ (s : State) (v : Word),
    memWrite 0x000 v s = execute v s ∧ memWrite 0x010 v s = .next { s with x := v } ∧ memWrite 0x014 v s = .next { s with y := v } ∧
    memWrite 0x018 v s = .next { s with z := v } ∧ memWrite 0x020 v s = msgIn v s ∧
    (v.getLsbD 2 = true → memWrite 0x004 v s = .next { s with err := false, ecode := .none }) ∧
    (v.getLsbD 2 = false → memWrite 0x004 v s = .next s) ∧
    ∀ off, off ≠ 0x000 → off ≠ 0x004 → off ≠ 0x010 → off ≠ 0x014 → off ≠ 0x018 → off ≠ 0x020 →
      memWrite off v s = .next (recordError .busWrite s)

/-- R52, R53, R59: the step of a bus read returns its value and changes no state of the core, and the step of a bus write is that write,
at every aligned offset. The record of the value returned is the model's own (assumption log 3). -/
def Obligations.BusAccessesStep : Prop :=
  ∀ (s : State) (off : BitVec 9) (v : Word) (rest : List HostEvent), off.toNat % 4 = 0 →
    (s.bus = rd off :: rest → step s = .next { s with bus := rest, rdata := some (memRead off.toNat s) }) ∧
    (s.bus = wr off v :: rest → step s = memWrite off.toNat v { s with bus := rest, rdata := none })

/-- R23: a bus write of an operand register is read back at its offset, and every other offset of the window reads as before. -/
def Obligations.OperandRegistersReadBack : Prop :=
  ∀ (s : State) (v : Word) (off : Nat), off = 0x010 ∨ off = 0x014 ∨ off = 0x018 →
    ∃ t, memWrite off v s = .next t ∧ memRead off t = v ∧ ∀ other, other ≠ off → memRead other t = memRead other s

/-- R53, R183: a bus write to a register the host cannot write leaves every offset of the window but STATUS reading as before. -/
def Obligations.ReadOnlyRegistersKeepTheirValues : Prop :=
  ∀ (s : State) (v : Word) (off : Nat), off = 0x008 ∨ off = 0x00C ∨ off = 0x01C ∨ (0x024 ≤ off ∧ off ≤ 0x1FC) →
    ∃ t, memWrite off v s = .next t ∧ t.err = true ∧ (s.err = false → t.ecode = .busWrite) ∧
      ∀ other, other ≠ 0x004 → memRead other t = memRead other s

/-- R54, U3: an access of another width, or at an offset that is no multiple of 4, has no step. The refusals' names are the model's choice
(assumption log 5), and so is that an access both of another width and misaligned is refused for its width. -/
def Obligations.AccessesOutsideTheInterfaceRefused : Prop :=
  ∀ (s : State) (off : BitVec 9) (bytes : Nat) (v : Word) (rest : List HostEvent) (e : HostEvent),
    e = .read (.window off) bytes ∨ e = .write (.window off) bytes v → s.bus = e :: rest →
    (bytes ≠ 4 → step s = .refused (.accessWidth bytes)) ∧
    (bytes = 4 → off.toNat % 4 ≠ 0 → step s = .refused (.misalignedOffset off))

/-- R50, U4: the window is the 0x200 bytes from BASE, wherever BASE is; an access to any other address is not the core's and is refused
by name (assumption log 5). -/
def Obligations.WindowLiesAtBase : Prop :=
  ∀ base addr : Nat,
    (∀ off : BitVec 9, addrAt base addr = .window off ↔ addr = base + off.toNat) ∧
    (addr < base ∨ base + 0x200 ≤ addr → addrAt base addr = .outside addr ∧
      ∀ (s : State) (bytes : Nat) (v : Word) (rest : List HostEvent) (e : HostEvent),
        e = .read (addrAt base addr) bytes ∨ e = .write (addrAt base addr) bytes v → s.bus = e :: rest →
        step s = .refused (.outsideWindow addr))

/-! ### The command word (30_encoding.md) -/

/-- R83: command words written out from the table's bit patterns decode to the commands they stand for, and words next to them to none. -/
def Obligations.TableWordsDecode : Prop :=
  decode 0b00000000000000000000000000000000 = .ok .nop ∧ decode 0b00000001000000000000000000000000 = .ok .srst ∧
  decode 0b00010000000000000000000000000001 = .ok (.rotr 1) ∧ decode 0b00010001000000000000000000011111 = .ok (.shr 31) ∧
  decode 0b00010111000000000000000000000000 = .ok .ssig1 ∧ decode 0b00100001000000000000000000000000 = .ok .expall ∧
  decode 0b00110000000000000000000000000000 = .ok .rnd1 ∧ decode 0b00110011000000000000000000000000 = .ok .block ∧
  decode 0b01000000000000000000000000000000 = .ok .encode ∧ decode 0b00010000000000000000000000100000 = .error .badField ∧
  decode 0b00000011000000000000000000000000 = .error .illegalOpcode

/-- R80, R83, R81: decode and encode agree, for every command and every value of its IMM field: a well-formed command is read back from
its word, the word of a term whose IMM[7:5] is not 0 is refused with BAD_FIELD, and a word that decodes is the word of what it decodes
to. -/
def Obligations.DecodeEncodeAgree : Prop :=
  (∀ i : Instr, (i.wf = true → decode (encode i) = .ok i) ∧ (i.wf = false → decode (encode i) = .error .badField)) ∧
  ∀ (v : Word) (i : Instr), decode v = .ok i → encode i = v ∧ i.wf = true

/-- R83: "A word `v` spells mnemonic m exactly when `v & mask(m) = match(m)`", the match and mask of each row of the table, and no word
spells two. -/
def Obligations.WordSpellsItsMnemonic : Prop :=
  ∀ v : Word,
    (∀ i m, (i, m) ∈ [(Instr.nop, 0x00000000#32), (.srst, 0x01000000#32), (.init, 0x02000000#32), (.ch, 0x12000000#32),
        (.maj, 0x13000000#32), (.bsig0, 0x14000000#32), (.bsig1, 0x15000000#32), (.ssig0, 0x16000000#32), (.ssig1, 0x17000000#32),
        (.add, 0x18000000#32), (.exp1, 0x20000000#32), (.expall, 0x21000000#32), (.rnd1, 0x30000000#32), (.rndall, 0x31000000#32),
        (.accum, 0x32000000#32), (.block, 0x33000000#32), (.encode, 0x40000000#32)] →
      (decode v = .ok i ↔ v &&& 0xFFFFFFFF#32 = m)) ∧
    ((∃ imm, decode v = .ok (.rotr imm)) ↔ v &&& 0xFFFFFFE0#32 = 0x10000000#32) ∧
    ((∃ imm, decode v = .ok (.shr imm)) ↔ v &&& 0xFFFFFFE0#32 = 0x11000000#32) ∧
    (∀ imm, decode v = .ok (.rotr imm) ∨ decode v = .ok (.shr imm) → imm.toNat = v.toNat % 32)

/-- R84: the checks of `Execute(v)` in their order, which error each word records, and the codes of the two. -/
def Obligations.ExecuteChecksInOrder : Prop :=
  ∀ (v : Word) (s : State),
    let opc := v.extractLsb' 24 8
    let rsv := v.extractLsb' 8 16
    let imm := v.extractLsb' 0 8
    let assigned := opc ∈ [0x00#8, 0x01#8, 0x02#8, 0x10#8, 0x11#8, 0x12#8, 0x13#8, 0x14#8, 0x15#8, 0x16#8, 0x17#8, 0x18#8, 0x20#8,
      0x21#8, 0x30#8, 0x31#8, 0x32#8, 0x33#8, 0x40#8]
    let amountOpc := opc = 0x10#8 ∨ opc = 0x11#8
    (¬ assigned → execute v s = .next (recordError .illegalOpcode s)) ∧
    (assigned → rsv ≠ 0 → execute v s = .next (recordError .badField s)) ∧
    (assigned → amountOpc → imm.extractLsb' 5 3 ≠ 0 → execute v s = .next (recordError .badField s)) ∧
    (assigned → ¬ amountOpc → imm ≠ 0 → execute v s = .next (recordError .badField s)) ∧
    (assigned → rsv = 0 → (amountOpc → imm.extractLsb' 5 3 = 0) → (¬ amountOpc → imm = 0) →
      ∃ i, opcodeOf i = opc ∧ immediateOf i = imm ∧ execute v s = exec i s) ∧
    ecodeBits .illegalOpcode = 1 ∧ ecodeBits .badField = 2

/-- R21, R85: a step whose next event is the bus write of a command's word is that command, at the state with the write taken off the
bus. (The record of the value the bus returned is the model's own, assumption log 3.) -/
def Obligations.StepRunsDecodedCommand : Prop :=
  ∀ (s : State) (v : Word) (rest : List HostEvent) (i : Instr), s.bus = .write (.window 0x000) 4 v :: rest → decode v = .ok i →
    step s = exec i { s with bus := rest, rdata := none }

/-! ### The error flag (60_exceptions.md) -/

/-- R182: RecordError keeps the first code since ERR was cleared, and writes nothing but ERR and ECODE; `raise CmdError(code)` is it. -/
def Obligations.RecordErrorKeepsFirstCode : Prop :=
  ∀ (c : ECode) (s : State),
    (s.err = false → recordError c s = { s with err := true, ecode := c }) ∧ (s.err = true → recordError c s = s) ∧
    raiseError c s = .next (recordError c s)

/-- R181: the numbers of the error codes, and that no two share one. -/
def Obligations.ErrorCodesNumbered : Prop :=
  [ECode.none, .illegalOpcode, .badField, .notInit, .seqSched, .seqRound, .seqAccum, .busWrite].map ecodeBits =
    [0, 1, 2, 3, 4, 5, 6, 7] ∧ ∀ c d : ECode, ecodeBits c = ecodeBits d → c = d

/-- R187: a write of STATUS with bit 2 set, SRST and reset each leave ERR = 0 and ECODE = 0, and while ERR = 1 a further error is
absorbed. -/
def Obligations.ErrorReportEnds : Prop :=
  ∀ s : State,
    (∀ v : Word, v.getLsbD 2 = true →
      ∃ t, memWrite 0x004 v s = .next t ∧ t = { s with err := t.err, ecode := t.ecode } ∧ t.err = false ∧ t.ecode = .none) ∧
    (∃ t, exec .srst s = .next t ∧ t.err = false ∧ t.ecode = .none) ∧
    (∀ draw, (State.resetWith draw).err = false ∧ (State.resetWith draw).ecode = .none) ∧
    (s.err = true → ∀ c, raiseError c s = .next s)

/-- R180, R208: every command answers a next state, in every state whatever. -/
def Obligations.EveryCommandCompletes : Prop :=
  ∀ (i : Instr) (s : State), ∃ t, exec i s = .next t

/-- R183, R184: a command that records an error changes nothing but ERR and ECODE, and the code is one its rule lists. -/
def Obligations.ErrorsArePrecise : Prop :=
  ∀ (i : Instr) (s t : State), s.err = false → exec i s = .next t → t.err = true →
    ∃ c, t = { s with err := true, ecode := c } ∧
      ((c = .notInit ∧ s.hv = false ∧ (i = .encode ∨ (s.rc.val = 0 ∧ (i = .rnd1 ∨ i = .rndall ∨ i = .block)))) ∨
       (c = .seqSched ∧ ((s.sc.val < 16 ∧ (i = .exp1 ∨ i = .expall ∨ i = .block)) ∨ (s.sc.val = 64 ∧ i = .exp1))) ∨
       (c = .seqRound ∧ ((i = .rnd1 ∧ (s.rc.val = 64 ∨ s.sc.val ≤ s.rc.val)) ∨ (i = .rndall ∧ s.sc.val < 64))) ∨
       (c = .seqAccum ∧ i = .accum ∧ s.rc.val ≠ 64))

/-- R85, R183: "A command executes while ERR = 1 exactly as while ERR = 0": what ERR and ECODE hold decides nothing but ERR and ECODE. -/
def Obligations.ErrorFlagBlocksNothing : Prop :=
  ∀ (i : Instr) (s : State) (e : Bool) (c : ECode), ∃ t t', exec i s = .next t ∧ exec i { s with err := e, ecode := c } = .next t' ∧
    t' = { t with err := t'.err, ecode := t'.ecode }

/-! ### The control commands (40_control.md) -/

/-- R100: NOP does nothing, in every state, and a word with OPC 0x00 and any other bit set is refused with BAD_FIELD. -/
def Obligations.NopDoesNothing : Prop :=
  ∀ s : State, Runs .nop 0x00000000 s s ∧ BadFieldsRefused 0x00 s

/-- R101: SRST clears every control field and keeps every datapath register; it never leaves an error recorded. -/
def Obligations.SoftResetClearsControl : Prop :=
  ∀ s : State,
    Runs .srst 0x01000000 s { s with sc := 0, rc := 0, hv := false, dv := false, err := false, ecode := .none } ∧
    BadFieldsRefused 0x01 s

/-- R102, R150: INIT loads H with the eight words of H_INITIAL, sets HV and clears SC and RC, in every state, and nothing else changes;
twice in a row is the same as once. -/
def Obligations.InitStartsAMessage : Prop :=
  ∀ s : State, ∃ t, Runs .init 0x02000000 s t ∧ t = { s with h := t.h, hv := true, sc := 0, rc := 0 } ∧
    t.h = #v[0x6a09e667#32, 0xbb67ae85#32, 0x3c6ef372#32, 0xa54ff53a#32, 0x510e527f#32, 0x9b05688c#32, 0x1f83d9ab#32, 0x5be0cd19#32] ∧
    exec .init t = .next t ∧ BadFieldsRefused 0x02 s

/-! ### The word ALU (41_word_alu.md) -/

/-- R111, R112: ROTR n and SHR n for every amount 0 to 31, bit by bit; R and nothing else is written; a word whose RSV or IMM[7:5] is
not 0 is refused with BAD_FIELD. -/
def Obligations.RotateAndShiftByAmount : Prop :=
  (∀ (s : State) (imm : BitVec 8), imm.extractLsb' 5 3 = 0 →
    (∃ t, Runs (.rotr imm) (0x10000000#32 ||| imm.setWidth 32) s t ∧ t = { s with r := t.r } ∧
      ∀ i < 32, t.r.getLsbD i = s.x.getLsbD ((i + imm.toNat) % 32)) ∧
    (∃ t, Runs (.shr imm) (0x11000000#32 ||| imm.setWidth 32) s t ∧ t = { s with r := t.r } ∧
      ∀ i < 32, t.r.getLsbD i = (decide (i + imm.toNat < 32) && s.x.getLsbD (i + imm.toNat)))) ∧
  ∀ (s : State) (v : Word), opcField v = 0x10 ∨ opcField v = 0x11 → rsvField v ≠ 0 ∨ (immField v).extractLsb' 5 3 ≠ 0 →
    execute v s = .next (recordError .badField s)

/-- R113, R114: CH takes each bit from Y where X has a 1 and from Z where it has a 0; MAJ gives each bit the value at least two of X, Y
and Z hold; R and nothing else is written. -/
def Obligations.ChoiceAndMajorityBitwise : Prop :=
  ∀ s : State,
    (∃ t, Runs .ch 0x12000000 s t ∧ t = { s with r := t.r } ∧
      ∀ i < 32, t.r.getLsbD i = if s.x.getLsbD i then s.y.getLsbD i else s.z.getLsbD i) ∧
    (∃ t, Runs .maj 0x13000000 s t ∧ t = { s with r := t.r } ∧
      ∀ i < 32, t.r.getLsbD i = decide (2 ≤ (s.x.getLsbD i).toNat + (s.y.getLsbD i).toNat + (s.z.getLsbD i).toNat)) ∧
    BadFieldsRefused 0x12 s ∧ BadFieldsRefused 0x13 s

/-- R115 to R118: the four sigma functions of X, with the rotations written as the library's circular right rotation; R and nothing else
is written. -/
def Obligations.SigmaFunctions : Prop :=
  ∀ s : State,
    (∃ t, Runs .bsig0 0x14000000 s t ∧ t = { s with r := t.r } ∧
      t.r = s.x.rotateRight 2 ^^^ s.x.rotateRight 13 ^^^ s.x.rotateRight 22) ∧
    (∃ t, Runs .bsig1 0x15000000 s t ∧ t = { s with r := t.r } ∧
      t.r = s.x.rotateRight 6 ^^^ s.x.rotateRight 11 ^^^ s.x.rotateRight 25) ∧
    (∃ t, Runs .ssig0 0x16000000 s t ∧ t = { s with r := t.r } ∧
      t.r = s.x.rotateRight 7 ^^^ s.x.rotateRight 18 ^^^ (s.x >>> 3)) ∧
    (∃ t, Runs .ssig1 0x17000000 s t ∧ t = { s with r := t.r } ∧
      t.r = s.x.rotateRight 17 ^^^ s.x.rotateRight 19 ^^^ (s.x >>> 10)) ∧
    BadFieldsRefused 0x14 s ∧ BadFieldsRefused 0x15 s ∧ BadFieldsRefused 0x16 s ∧ BadFieldsRefused 0x17 s

/-- R119: ADD is the sum of X and Y modulo 2^32; the carry is discarded, no flag is written, and R is the only register that changes. -/
def Obligations.AddModulo : Prop :=
  ∀ s : State, (∃ t, Runs .add 0x18000000 s t ∧ t = { s with r := t.r } ∧ t.r.toNat = (s.x.toNat + s.y.toNat) % 2 ^ 32) ∧
    BadFieldsRefused 0x18 s

/-- 41_word_alu.md's common clause: an ALU command reads X, Y and Z only, and every offset of the window but R's reads after it as
before. -/
def Obligations.AluReadsOperandsWritesResult : Prop :=
  ∀ (i : Instr) (s s' : State),
    (∃ imm, i = .rotr imm ∨ i = .shr imm) ∨ i ∈ [.ch, .maj, .bsig0, .bsig1, .ssig0, .ssig1, .add] →
    s.x = s'.x → s.y = s'.y → s.z = s'.z →
    ∃ t t', exec i s = .next t ∧ exec i s' = .next t' ∧ t.r = t'.r ∧ ∀ off, off ≠ 0x01C → memRead off t = memRead off s

/-! ### The message schedule (42_schedule.md) -/

/-- R130: a bus write of MSG_IN appends the word at W[SC], or records SEQ_SCHED and discards it when 16 words are loaded. -/
def Obligations.PushAppendsBlockWord : Prop :=
  ∀ (s : State) (v : Word),
    (s.sc.val < 16 → ∃ t, memWrite 0x020 v s = .next t ∧ t = { s with w := t.w, sc := t.sc } ∧ t.sc.val = s.sc.val + 1 ∧
      t.schedule s.sc.val = v ∧ ∀ j, j ≠ s.sc.val → t.schedule j = s.schedule j) ∧
    (16 ≤ s.sc.val → memWrite 0x020 v s = .next (recordError .seqSched s))

/-- R132, R131: EXP1 writes W[SC] by the recurrence and SC + 1; with SC < 16 or SC = 64 it records SEQ_SCHED. -/
def Obligations.Exp1ExpandsOneWord : Prop :=
  ∀ s : State,
    (16 ≤ s.sc.val → s.sc.val < 64 → ∃ t, Runs .exp1 0x20000000 s t ∧ t = { s with w := t.w, sc := t.sc } ∧
      t.sc.val = s.sc.val + 1 ∧
      t.schedule s.sc.val = s.schedule (s.sc.val - 16) + ssig0 (s.schedule (s.sc.val - 15)) + s.schedule (s.sc.val - 7) +
        ssig1 (s.schedule (s.sc.val - 2)) ∧
      ∀ j, j ≠ s.sc.val → t.schedule j = s.schedule j) ∧
    (s.sc.val < 16 ∨ s.sc.val = 64 → Raises .exp1 0x20000000 s .seqSched) ∧ BadFieldsRefused 0x20 s

/-- R133: EXPALL writes W[SC] to W[63] by the recurrence and SC = 64; at SC = 64 it does nothing, and with SC < 16 it records
SEQ_SCHED. -/
def Obligations.ExpallExpandsTheRest : Prop :=
  ∀ s : State,
    (16 ≤ s.sc.val → ∃ t, Runs .expall 0x21000000 s t ∧ t = { s with w := t.w, sc := t.sc } ∧ t.sc.val = 64 ∧
      (∀ j < s.sc.val, t.schedule j = s.schedule j) ∧
      (∀ j, s.sc.val ≤ j → j < 64 → t.schedule j =
        t.schedule (j - 16) + ssig0 (t.schedule (j - 15)) + t.schedule (j - 7) + ssig1 (t.schedule (j - 2))) ∧
      (s.sc.val = 64 → t = s)) ∧
    (s.sc.val < 16 → Raises .expall 0x21000000 s .seqSched) ∧ BadFieldsRefused 0x21 s

/-- R132: as many EXP1 as words are missing give the same state as one EXPALL (48 of them from SC = 16). -/
def Obligations.Exp1sMakeExpall : Prop :=
  ∀ (s : State) (rest : List HostEvent), 16 ≤ s.sc.val → s.sc.val < 64 →
    s.bus = List.replicate (64 - s.sc.val) (cmdWrite 0x20000000) ++ rest →
    ∃ t, core.run (64 - s.sc.val) s = .next t ∧ exec .expall { s with bus := rest, rdata := none } = .next t

/-! ### The compression (43_compress.md) -/

/-- R142, R141: RND1 is round number RC: at RC = 0 it starts from H, else from WV, and writes the eight new working variables and RC + 1;
its two errors, NOT_INIT first. -/
def Obligations.Rnd1PerformsOneRound : Prop :=
  ∀ s : State,
    (s.rc.val = 0 ∧ s.hv = false → Raises .rnd1 0x30000000 s .notInit) ∧
    (¬ (s.rc.val = 0 ∧ s.hv = false) → s.rc.val = 64 ∨ s.sc.val ≤ s.rc.val → Raises .rnd1 0x30000000 s .seqRound) ∧
    (¬ (s.rc.val = 0 ∧ s.hv = false) → s.rc.val < 64 → s.rc.val < s.sc.val →
      ∃ t, Runs .rnd1 0x30000000 s t ∧ t = { s with wv := t.wv, rc := t.rc } ∧ t.rc.val = s.rc.val + 1 ∧
        let v := if s.rc.val = 0 then s.h else s.wv
        let t1 := v[7] + bsig1 v[4] + ch v[4] v[5] v[6] + Sha256.roundConst s.rc.val + s.schedule s.rc.val
        let t2 := bsig0 v[0] + maj v[0] v[1] v[2]
        t.wv = #v[t1 + t2, v[0], v[1], v[2], v[3] + t1, v[4], v[5], v[6]]) ∧
    BadFieldsRefused 0x30 s

/-- R143: RNDALL performs the rounds RC to 63, each from the one before it; at RC = 64 it does nothing; its two errors, NOT_INIT
first. -/
def Obligations.RndallPerformsTheRest : Prop :=
  ∀ s : State,
    (s.rc.val = 0 ∧ s.hv = false → Raises .rndall 0x31000000 s .notInit) ∧
    (¬ (s.rc.val = 0 ∧ s.hv = false) → s.sc.val < 64 → Raises .rndall 0x31000000 s .seqRound) ∧
    (¬ (s.rc.val = 0 ∧ s.hv = false) → s.sc.val = 64 →
      ∃ t, Runs .rndall 0x31000000 s t ∧ t = { s with wv := t.wv, rc := t.rc } ∧ t.rc.val = 64 ∧ (s.rc.val = 64 → t = s) ∧
        ∃ vars : Nat → Vector Word 8, vars s.rc.val = (if s.rc.val = 0 then s.h else s.wv) ∧
          (∀ i, s.rc.val ≤ i → i < 64 → vars (i + 1) = roundVars (vars i) (Sha256.roundConst i) (s.schedule i)) ∧
          t.wv = vars 64) ∧
    BadFieldsRefused 0x31 s

/-- R142, R143: with the schedule complete, as many RND1 as rounds are missing give the same state as one RNDALL. -/
def Obligations.Rnd1sMakeRndall : Prop :=
  ∀ (s : State) (rest : List HostEvent), s.sc.val = 64 → s.rc.val < 64 → (s.rc.val = 0 → s.hv = true) →
    s.bus = List.replicate (64 - s.rc.val) (cmdWrite 0x30000000) ++ rest →
    ∃ t, core.run (64 - s.rc.val) s = .next t ∧ exec .rndall { s with bus := rest, rdata := none } = .next t

/-- R140, R150, G1, G2: each K[i] is the first 32 bits of the fractional part of the cube root of a prime, and each H_INITIAL[i] those of
its square root, for the first 64 and the first 8 primes in order. -/
def Obligations.ConstantsAreFractionalRoots : Prop :=
  let primes := (List.range 312).filter fun p => decide (2 ≤ p) && (List.range p).all fun d => decide (d < 2) || p % d != 0
  primes.length = 64 ∧
  (∀ i : Fin 64, ∃ n, let m := n * 2 ^ 32 + K[i].toNat
    m ^ 3 ≤ primes.getD i.val 0 * 2 ^ 96 ∧ primes.getD i.val 0 * 2 ^ 96 < (m + 1) ^ 3) ∧
  ∀ i : Fin 8, ∃ n, let m := n * 2 ^ 32 + H_INITIAL[i].toNat
    m ^ 2 ≤ primes.getD i.val 0 * 2 ^ 64 ∧ primes.getD i.val 0 * 2 ^ 64 < (m + 1) ^ 2

/-! ### The chainer and the encoder (44_chain.md, 45_encoder.md) -/

/-- R152, R151: ACCUM adds WV into H position for position and sets RC and SC to 0, when RC = 64; else it records SEQ_ACCUM. -/
def Obligations.AccumFoldsTheBlock : Prop :=
  ∀ s : State,
    (s.rc.val = 64 → ∃ t, Runs .accum 0x32000000 s t ∧ t = { s with h := t.h, rc := 0, sc := 0 } ∧
      ∀ k : Fin 8, t.h[k].toNat = (s.h[k].toNat + s.wv[k].toNat) % 2 ^ 32) ∧
    (s.rc.val ≠ 64 → Raises .accum 0x32000000 s .seqAccum) ∧ BadFieldsRefused 0x32 s

/-- R153: BLOCK has the effect of `EXPALL; RNDALL; ACCUM` from the same state and leaves SC = RC = 0; it writes nothing but W, WV, H, SC
and RC; after all 64 rounds it only accumulates; its two errors, NOT_INIT first. -/
def Obligations.BlockIsExpallRndallAccum : Prop :=
  ∀ s : State,
    (s.rc.val = 0 ∧ s.hv = false → Raises .block 0x33000000 s .notInit) ∧
    (¬ (s.rc.val = 0 ∧ s.hv = false) → s.sc.val < 16 → Raises .block 0x33000000 s .seqSched) ∧
    (¬ (s.rc.val = 0 ∧ s.hv = false) → 16 ≤ s.sc.val →
      ∃ t1 t2 t, exec .expall s = .next t1 ∧ exec .rndall t1 = .next t2 ∧ exec .accum t2 = .next t ∧ Runs .block 0x33000000 s t ∧
        t = { s with w := t.w, wv := t.wv, h := t.h, sc := 0, rc := 0 } ∧
        (∀ k : Fin 8, t.h[k] = s.h[k] + t.wv[k])) ∧
    (s.rc.val = 64 → s.sc.val = 64 → exec .block s = exec .accum s) ∧ BadFieldsRefused 0x33 s

/-- R160, R161: ENCODE writes the 64 characters of H into DG, character j in DG[j >> 2] with the first in bits 31:24, and sets DV; with
HV = 0 it records NOT_INIT. -/
def Obligations.EncodeRendersHash : Prop :=
  ∀ s : State,
    (s.hv = true → ∃ t, Runs .encode 0x40000000 s t ∧ t = { s with dg := t.dg, dv := true } ∧
      ∀ j : Fin 64,
        let nib := (s.h.toList.getD (j.val / 8) 0).toNat / 16 ^ (7 - j.val % 8) % 16
        (t.digestCharacter j).toNat = if nib ≤ 9 then 0x30 + nib else 0x61 + nib - 10) ∧
    (s.hv = false → Raises .encode 0x40000000 s .notInit) ∧ BadFieldsRefused 0x40 s

/-- R160: the digest loses nothing: two hash states with the same digest buffer are the same. -/
def Obligations.DigestDeterminesHash : Prop :=
  ∀ s s' t t' : State, exec .encode s = .next t → exec .encode s' = .next t' → s.hv = true → s'.hv = true → t.dg = t'.dg → s.h = s'.h

/-! ### The whole machine (10_state.md) -/

/-- R36: `RC <= SC <= 64`, `RC > 0` implies `HV = 1`, and `ECODE ≠ 0` exactly when `ERR = 1`: every step keeps them, and they hold after
a hardware reset whatever the UNSPEC draws are. -/
def Obligations.InvariantKept : Prop :=
  (∀ s t : State, s.Inv → step s = .next t → t.Inv) ∧ ∀ draw, (State.resetWith draw).Inv

/-- R26, R28, R131, R141, R151: every step keeps the meaning of the counters: the valid schedule words from W[16] on are the recurrence's,
and once a round is done WV is what rounds 0 to RC−1 make of H and W. -/
def Obligations.CountersMeanWhatTheySay : Prop :=
  ∀ s t : State, s.Inv → s.ScheduleOk → s.RoundsOk → step s = .next t → t.ScheduleOk ∧ t.RoundsOk

/-- R32, R160: every step keeps DG made of lowercase hexadecimal characters while DV = 1. -/
def Obligations.DigestStaysHexadecimal : Prop :=
  ∀ s t : State, s.DigestOk → step s = .next t → t.DigestOk

/-- The state after a hardware reset has all that every run keeps true, whatever the UNSPEC draws are. -/
def Obligations.GoodAtReset : Prop :=
  ∀ draw, (State.resetWith draw).Good

/-- R23, R24, R25, R27, R29, R30, R31, R32: which commands write each register: no command writes X, Y or Z, only the ALU commands R, only
the expansions W (and of it no block word), only the rounds WV, only INIT and the accumulations H, INIT and SRST HV, ENCODE DG, ENCODE and
SRST DV; the events still to come are no command's. -/
def Obligations.RegistersHaveOwners : Prop :=
  ∀ (i : Instr) (s t : State), exec i s = .next t →
    t.x = s.x ∧ t.y = s.y ∧ t.z = s.z ∧ t.bus = s.bus ∧ t.rdata = s.rdata ∧ t.resets = s.resets ∧
    (t.r ≠ s.r → (∃ imm, i = .rotr imm ∨ i = .shr imm) ∨ i ∈ [.ch, .maj, .bsig0, .bsig1, .ssig0, .ssig1, .add]) ∧
    (t.w ≠ s.w → i = .exp1 ∨ i = .expall ∨ i = .block) ∧ (∀ j < 16, t.schedule j = s.schedule j) ∧
    (t.wv ≠ s.wv → i = .rnd1 ∨ i = .rndall ∨ i = .block) ∧ (t.h ≠ s.h → i = .init ∨ i = .accum ∨ i = .block) ∧
    (t.hv ≠ s.hv → (i = .init ∧ t.hv = true) ∨ (i = .srst ∧ t.hv = false)) ∧ (t.dg ≠ s.dg → i = .encode) ∧
    (t.dv ≠ s.dv → (i = .encode ∧ t.dv = true) ∨ (i = .srst ∧ t.dv = false))

/-- R26, R28: in every step SC stays, goes up or goes to 0, and so does RC; and while SC does not go to 0 no valid word of the schedule
changes. -/
def Obligations.CountersOnlyRiseOrClear : Prop :=
  ∀ s t : State, step s = .next t →
    (t.sc.val = 0 ∨ (s.sc.val ≤ t.sc.val ∧ ∀ j < s.sc.val, t.schedule j = s.schedule j)) ∧ (t.rc.val = 0 ∨ s.rc.val ≤ t.rc.val)

/-- R201, R203: no datapath register ever decides anything but datapath registers: two states that differ only there step alike, and
their control fields stay the same, whatever the events; so do two that a host's UNSPEC draws make different. -/
def Obligations.ControlIgnoresData : Prop :=
  ∀ s s' : State, s.SameControl s' →
    (∀ t, step s = .next t → ∃ t', step s' = .next t' ∧ t.SameControl t') ∧ (∀ r, step s = .refused r → step s' = .refused r)

/-! ### The digest (44_chain.md R154, 49_host_procedure.md) -/

/-- R153, R154, R173: from a state whose counters mean what they say, however its expansions and rounds were interleaved, BLOCK makes of H
the compression function of the 16 block words and H; and so does ACCUM once all rounds are done. -/
def Obligations.BlockComputesCompression : Prop :=
  ∀ s : State, s.Inv → s.ScheduleOk → s.RoundsOk → s.hv = true → 16 ≤ s.sc.val →
    (∃ t, exec .block s = .next t ∧ t.h = Sha256.compress s.blockWords s.h) ∧
    (s.rc.val = 64 → ∃ t, exec .accum s = .next t ∧ t.h = Sha256.compress s.blockWords s.h)

/-- R173: "any interleaving of EXP1 and RND1 that the sequence rules admit, followed by ACCUM" leaves the same H as BLOCK: the block's
words pushed in order, with expansions and rounds of any kind in any order between and after them, and then ACCUM or BLOCK; where no
error was recorded at the end, H is the compression function of the block and the H before it. -/
def Obligations.EveryInterleavingGivesTheSameHash : Prop :=
  ∀ (s : State) (b : Vector Word 16) (work : List HostEvent) (last : Instr) (rest : List HostEvent),
    s.hv = true → s.sc = 0 → s.rc = 0 → s.Clean →
    (∀ e ∈ work, (∃ v, e = pushw v) ∨ e ∈ [command .exp1, command .expall, command .rnd1, command .rndall]) →
    work.filterMap pushedWord = b.toList → last = .accum ∨ last = .block → s.bus = work ++ command last :: rest →
    ∃ t, core.run (work.length + 1) s = .next t ∧ t.bus = rest ∧
      (t.Clean → t.h = Sha256.compress b s.h ∧ t.hv = true ∧ t.sc = 0 ∧ t.rc = 0)

/-- R154: from INIT on, whatever the state before it, N blocks each pushed as 16 words and ended by BLOCK or by `EXPALL; RNDALL; ACCUM`
leave in H the source's fold of the compression function over them, with no error recorded. -/
def Obligations.BlocksFoldIntoHash : Prop :=
  ∀ (s : State) (blocks : List (Vector Word 16 × Bool)) (rest : List HostEvent), s.bus = foldSequence blocks ++ rest →
    ∃ t, core.run (foldSequence blocks).length s = .next t ∧ t.h = Sha256.hash (blocks.map Prod.fst) ∧ t.hv = true ∧ t.sc = 0 ∧
      t.rc = 0 ∧ t.bus = rest ∧ t.dg = s.dg ∧ t.dv = s.dv ∧ t.err = s.err ∧ t.ecode = s.ecode ∧ t.x = s.x ∧ t.y = s.y ∧ t.z = s.z ∧
      t.r = s.r

/-- R170, R171: the padded message is a whole number of blocks, N = floor((L + 8) / 64) + 1; it begins with the message and the 0x80
byte, ends with the big-endian length field, and between them holds zero bytes only, as few as can be. -/
def Obligations.PaddingFillsWholeBlocks : Prop :=
  ∀ msg : List Byte,
    (pad msg).length = 64 * blockCount msg.length ∧ (pad msg).take (msg.length + 1) = msg ++ [0x80] ∧
    (pad msg).drop (64 * blockCount msg.length - 8) = be64 (msg.length * 8) ∧
    (∀ i, msg.length + 1 ≤ i → i < 64 * blockCount msg.length - 8 → (pad msg)[i]? = some 0) ∧
    (msg.length + 1 + padZeros msg.length) % 64 = 56 ∧ (∀ k, (msg.length + 1 + k) % 64 = 56 → padZeros msg.length ≤ k) ∧
    (be64 (msg.length * 8)).foldl (fun n b => n * 256 + b.toNat) 0 = msg.length * 8 % 2 ^ 64

/-- R173, R4: from any state, the digest sequence of any message ends with the 64 lowercase hexadecimal characters of its SHA-256 in DG,
the 16 reads return DG[0] to DG[15] in order, and no error is recorded. -/
def Obligations.DigestSequenceHashesMessage : Prop :=
  ∀ (s : State) (msg : List Byte) (rest : List HostEvent), s.bus = digestSequence msg ++ rest →
    ∃ t, core.run (digestSequence msg).length s = .next t ∧ t.h = Sha256.hash (messageBlocks msg) ∧
      (∀ j : Fin 64, IsHexChar (t.digestCharacter j) ∧ t.digestCharacter j = digestChar (Sha256.hash (messageBlocks msg)) j) ∧
      (∀ k : Fin 16, ∃ u, core.run ((hashSequence msg).length + k.val + 1) s = .next u ∧ u.rdata = some t.dg[k]) ∧
      t.dv = true ∧ t.err = s.err ∧ t.ecode = s.ecode ∧ t.bus = rest ∧ (s.Inv → s.Clean → t.rdata = some 0x00000003)
end

