-- ==== Sys2Proof/Laws/Decode.lean ====
section
/-! SUPPORT. The command word: what each field of an encoded command is, when a word decodes to a command, and which words decode to
none. Later proofs cite `decode_ok_iff`, `decode_illegal` and `decode_bad`, and never unfold `decode`. -/

namespace Sys2Proof

/-- A bit of an encoded command (R80): IMM below bit 8, RSV = 0 below bit 24, OPC above. -/
theorem getLsbD_encode (i : Instr) (j : Nat) :
    (encode i).getLsbD j = if j < 8 then (immediateOf i).getLsbD j else if j < 24 then false else (opcodeOf i).getLsbD (j - 24) := by
  show ((opcodeOf i ++ 0#16 ++ immediateOf i : BitVec (8 + 16 + 8))).getLsbD j = _
  simp only [BitVec.getLsbD_append, BitVec.getLsbD_zero]
  by_cases h8 : j < 8
  · simp [h8]
  · by_cases h24 : j < 24
    · simp [h8, h24, show j - 8 < 16 by omega]
    · simp [h8, h24, show ¬ j - 8 < 16 by omega, show j - 8 - 16 = j - 24 by omega]

theorem opcField_encode (i : Instr) : opcField (encode i) = opcodeOf i := by
  apply BitVec.eq_of_getLsbD_eq
  intro j hj
  rw [opcField, BitVec.getLsbD_extractLsb', getLsbD_encode]
  simp [hj, show ¬ 24 + j < 8 by omega]

theorem rsvField_encode (i : Instr) : rsvField (encode i) = 0#16 := by
  apply BitVec.eq_of_getLsbD_eq
  intro j hj
  rw [rsvField, BitVec.getLsbD_extractLsb', getLsbD_encode]
  simp [show ¬ 8 + j < 8 by omega, show 8 + j < 24 by omega]

theorem immField_encode (i : Instr) : immField (encode i) = immediateOf i := by
  apply BitVec.eq_of_getLsbD_eq
  intro j hj
  rw [immField, BitVec.getLsbD_extractLsb', getLsbD_encode]
  simp [hj]

/-- A word is its three fields (R80). -/
theorem fields_append (v : Word) : opcField v ++ rsvField v ++ immField v = v := by
  apply BitVec.eq_of_getLsbD_eq
  intro j hj
  simp only [opcField, rsvField, immField, BitVec.getLsbD_append, BitVec.getLsbD_extractLsb']
  by_cases h8 : j < 8
  · simp [h8]
  · by_cases h24 : j < 24
    · simp [h8, show j - 8 < 16 by omega, show 8 + (j - 8) = j by omega]
    · simp [h8, show ¬ j - 8 < 16 by omega, show j - 8 - 16 < 8 by omega, show 24 + (j - 8 - 16) = j by omega]

theorem word_eq_of_fields {v u : Word} (ho : opcField v = opcField u) (hr : rsvField v = rsvField u)
    (hi : immField v = immField u) : v = u := by
  rw [← fields_append v, ← fields_append u, ho, hr, hi]

/-- The command of an OPC is the one whose row has it (R83). -/
theorem commandOf_opcode {opc imm : BitVec 8} {i : Instr} (h : commandOf opc imm = some i) :
    opcodeOf i = opc ∧ immediateOf i = (if takesAmount opc then imm else 0) := by
  unfold commandOf at h
  have e : opc = BitVec.ofNat 8 opc.toNat := by simp
  split at h <;> first
    | (obtain rfl := Option.some.inj h
       rename_i heq
       rw [heq] at e
       rw [e]
       exact ⟨rfl, rfl⟩)
    | exact absurd h (by simp)

/-- Each command is the one its OPC and IMM select (R83). -/
theorem commandOf_opcodeOf (i : Instr) : commandOf (opcodeOf i) (immediateOf i) = some i := by
  cases i <;> rfl

/-- Which commands take an immediate (R80), and what the check on it is (R81). -/
theorem wf_eq (i : Instr) :
    i.wf = if takesAmount (opcodeOf i) then decide ((immediateOf i).extractLsb' 5 3 = 0#3) else decide (immediateOf i = 0#8) := by
  cases i <;> rfl

/-- A word decodes to a command exactly when its fields are the command's and the command is well-formed (R84, R85). -/
theorem decode_ok_iff (v : Word) (i : Instr) :
    decode v = .ok i ↔ opcField v = opcodeOf i ∧ rsvField v = 0#16 ∧ immField v = immediateOf i ∧ i.wf = true := by
  constructor
  · intro h
    unfold decode at h
    split at h
    · cases h
    · rename_i i' hc
      obtain ⟨ho, hi⟩ := commandOf_opcode hc
      split at h
      · cases h
      · rename_i hr
        have hr : rsvField v = 0#16 := Decidable.not_not.mp hr
        split at h
        · rename_i ht
          split at h
          · cases h
          · rename_i h5
            obtain rfl := Except.ok.inj h
            rw [if_pos ht] at hi
            refine ⟨ho.symm, hr, hi.symm, ?_⟩
            rw [wf_eq, ho, if_pos ht, hi]
            exact decide_eq_true (Decidable.not_not.mp h5)
        · rename_i ht
          split at h
          · cases h
          · rename_i h0
            obtain rfl := Except.ok.inj h
            rw [if_neg ht] at hi
            have h0 : immField v = 0#8 := Decidable.not_not.mp h0
            refine ⟨ho.symm, hr, by rw [h0, hi]; rfl, ?_⟩
            rw [wf_eq, ho, if_neg ht, hi]
            exact decide_eq_true rfl
  · rintro ⟨ho, hr, hi, hwf⟩
    unfold decode
    rw [ho, hi, commandOf_opcodeOf]
    rw [wf_eq] at hwf
    simp only [hr]
    split at hwf
    · rename_i ht
      have h5 := of_decide_eq_true hwf
      simp [ht, h5]
    · rename_i ht
      have h0 := of_decide_eq_true hwf
      simp [ht, h0]

/-- A command word with an OPC of no command records ILLEGAL_OPCODE (R84). -/
theorem decode_illegal (v : Word) (h : commandOf (opcField v) (immField v) = none) : decode v = .error .illegalOpcode := by
  simp [decode, h]

/-- A command word with an assigned OPC that is no command's word is a bad field (R84). -/
theorem decode_bad (v : Word) {i : Instr} (h : commandOf (opcField v) (immField v) = some i) (hn : encode i ≠ v ∨ i.wf = false) :
    decode v = .error .badField := by
  cases hd : decode v with
  | ok i' =>
    obtain ⟨ho, hr, hi, hwf⟩ := (decode_ok_iff v i').mp hd
    have e : i' = i := by
      have := commandOf_opcodeOf i'
      rw [← ho, ← hi, h] at this
      exact (Option.some.inj this).symm
    subst e
    rcases hn with hn | hn
    · exact absurd (word_eq_of_fields (by rw [opcField_encode, ho]) (by rw [rsvField_encode, hr]) (by rw [immField_encode, hi])) hn
    · rw [hn] at hwf; cases hwf
  | error e =>
    cases e with
    | badField => rfl
    | illegalOpcode =>
      exfalso
      unfold decode at hd
      rw [h] at hd
      simp only at hd
      split at hd <;> first | cases hd | (split at hd <;> first | cases hd | (split at hd <;> cases hd))

/-- A command's word is read back (R83). -/
theorem decode_encode (i : Instr) (h : i.wf = true) : decode (encode i) = .ok i :=
  (decode_ok_iff _ _).mpr ⟨opcField_encode i, rsvField_encode i, immField_encode i, h⟩

end Sys2Proof
end

