-- ==== Sys2Proof/Laws/Encoder.lean ====
section
/-! SUPPORT. The digest encoder (R160): which character stands where in DG, and that no character stands for two nibbles. -/

namespace Sys2Proof.Machine

/-- The bytes of four bytes in a row. -/
theorem extract_of_bytes (a b c d : Byte) :
    (a ++ b ++ c ++ d : BitVec (8 + 8 + 8 + 8)).extractLsb' 24 8 = a ∧
    (a ++ b ++ c ++ d : BitVec (8 + 8 + 8 + 8)).extractLsb' 16 8 = b ∧
    (a ++ b ++ c ++ d : BitVec (8 + 8 + 8 + 8)).extractLsb' 8 8 = c ∧
    (a ++ b ++ c ++ d : BitVec (8 + 8 + 8 + 8)).extractLsb' 0 8 = d := by
  refine ⟨?_, ?_, ?_, ?_⟩ <;> apply BitVec.eq_of_getLsbD_eq <;> intro i hi <;>
    simp only [BitVec.getLsbD_extractLsb', BitVec.getLsbD_append, hi, decide_true, Bool.true_and]
  · simp [show ¬ 24 + i < 8 by omega, show ¬ 24 + i - 8 < 8 by omega, show ¬ 24 + i - 8 - 8 < 8 by omega,
      show 24 + i - 8 - 8 - 8 = i by omega]
  · simp [show ¬ 16 + i < 8 by omega, show ¬ 16 + i - 8 < 8 by omega, show 16 + i - 8 - 8 = i by omega]
    omega
  · simp [show ¬ 8 + i < 8 by omega, show 8 + i - 8 = i by omega]
    omega
  · simp [hi]

/-- Character j of the digest buffer is c[j] (R160). -/
theorem digestWords_char (h : Vector Word 8) (j : Fin 64) :
    ((digestWords h)[j.val / 4]'(by have := j.isLt; omega)).extractLsb' (24 - 8 * (j.val % 4)) 8 = digestChar h j := by
  have hj := j.isLt
  simp only [digestWords, Vector.getElem_ofFn]
  obtain ⟨h1, h2, h3, h4⟩ :=
    extract_of_bytes (digestChar h ⟨4 * (j.val / 4), by omega⟩) (digestChar h ⟨4 * (j.val / 4) + 1, by omega⟩)
      (digestChar h ⟨4 * (j.val / 4) + 2, by omega⟩) (digestChar h ⟨4 * (j.val / 4) + 3, by omega⟩)
  rcases (show j.val % 4 = 0 ∨ j.val % 4 = 1 ∨ j.val % 4 = 2 ∨ j.val % 4 = 3 by omega) with e | e | e | e <;> rw [e]
  · refine h1.trans (congrArg _ (Fin.ext ?_)); show 4 * (j.val / 4) = j.val; omega
  · refine h2.trans (congrArg _ (Fin.ext ?_)); show 4 * (j.val / 4) + 1 = j.val; omega
  · refine h3.trans (congrArg _ (Fin.ext ?_)); show 4 * (j.val / 4) + 2 = j.val; omega
  · refine h4.trans (congrArg _ (Fin.ext ?_)); show 4 * (j.val / 4) + 3 = j.val; omega

/-- The character codes of R160. -/
theorem hexChar_toNat : ∀ n : BitVec 4, (hexChar n).toNat = if n.toNat ≤ 9 then 0x30 + n.toNat else 0x61 + n.toNat - 10 := by decide

/-- Every character is a lowercase hexadecimal one (R160). -/
theorem hexChar_isHex (n : BitVec 4) : IsHexChar (hexChar n) := by unfold IsHexChar; revert n; decide

/-- No character stands for two nibbles (R160). -/
theorem hexChar_inj : ∀ n m : BitVec 4, hexChar n = hexChar m → n = m := by decide

end Sys2Proof.Machine
end

