-- ==== Sys2Proof/Laws/State.lean ====
section
/-! SUPPORT. One lemma a field for each named update of the state, so that no later proof unfolds one; and the schedule and the digest
buffer as functions of an index. -/

namespace Sys2Proof.Machine

/-! ### recordError (R182) -/

@[simp] theorem recordError_x (c : ECode) (s : State) : (recordError c s).x = s.x := rfl
@[simp] theorem recordError_y (c : ECode) (s : State) : (recordError c s).y = s.y := rfl
@[simp] theorem recordError_z (c : ECode) (s : State) : (recordError c s).z = s.z := rfl
@[simp] theorem recordError_r (c : ECode) (s : State) : (recordError c s).r = s.r := rfl
@[simp] theorem recordError_w (c : ECode) (s : State) : (recordError c s).w = s.w := rfl
@[simp] theorem recordError_sc (c : ECode) (s : State) : (recordError c s).sc = s.sc := rfl
@[simp] theorem recordError_wv (c : ECode) (s : State) : (recordError c s).wv = s.wv := rfl
@[simp] theorem recordError_rc (c : ECode) (s : State) : (recordError c s).rc = s.rc := rfl
@[simp] theorem recordError_h (c : ECode) (s : State) : (recordError c s).h = s.h := rfl
@[simp] theorem recordError_hv (c : ECode) (s : State) : (recordError c s).hv = s.hv := rfl
@[simp] theorem recordError_dg (c : ECode) (s : State) : (recordError c s).dg = s.dg := rfl
@[simp] theorem recordError_dv (c : ECode) (s : State) : (recordError c s).dv = s.dv := rfl
@[simp] theorem recordError_err (c : ECode) (s : State) : (recordError c s).err = true := rfl
@[simp] theorem recordError_ecode (c : ECode) (s : State) : (recordError c s).ecode = if s.err then s.ecode else c := rfl
@[simp] theorem recordError_bus (c : ECode) (s : State) : (recordError c s).bus = s.bus := rfl
@[simp] theorem recordError_rdata (c : ECode) (s : State) : (recordError c s).rdata = s.rdata := rfl
@[simp] theorem recordError_resets (c : ECode) (s : State) : (recordError c s).resets = s.resets := rfl

/-! ### clearError (R187) -/

@[simp] theorem clearError_x (s : State) : (clearError s).x = s.x := rfl
@[simp] theorem clearError_y (s : State) : (clearError s).y = s.y := rfl
@[simp] theorem clearError_z (s : State) : (clearError s).z = s.z := rfl
@[simp] theorem clearError_r (s : State) : (clearError s).r = s.r := rfl
@[simp] theorem clearError_w (s : State) : (clearError s).w = s.w := rfl
@[simp] theorem clearError_sc (s : State) : (clearError s).sc = s.sc := rfl
@[simp] theorem clearError_wv (s : State) : (clearError s).wv = s.wv := rfl
@[simp] theorem clearError_rc (s : State) : (clearError s).rc = s.rc := rfl
@[simp] theorem clearError_h (s : State) : (clearError s).h = s.h := rfl
@[simp] theorem clearError_hv (s : State) : (clearError s).hv = s.hv := rfl
@[simp] theorem clearError_dg (s : State) : (clearError s).dg = s.dg := rfl
@[simp] theorem clearError_dv (s : State) : (clearError s).dv = s.dv := rfl
@[simp] theorem clearError_err (s : State) : (clearError s).err = false := rfl
@[simp] theorem clearError_ecode (s : State) : (clearError s).ecode = .none := rfl
@[simp] theorem clearError_bus (s : State) : (clearError s).bus = s.bus := rfl
@[simp] theorem clearError_rdata (s : State) : (clearError s).rdata = s.rdata := rfl
@[simp] theorem clearError_resets (s : State) : (clearError s).resets = s.resets := rfl

/-! ### setResult (41_word_alu.md) -/

@[simp] theorem setResult_x (v : Word) (s : State) : (setResult v s).x = s.x := rfl
@[simp] theorem setResult_y (v : Word) (s : State) : (setResult v s).y = s.y := rfl
@[simp] theorem setResult_z (v : Word) (s : State) : (setResult v s).z = s.z := rfl
@[simp] theorem setResult_r (v : Word) (s : State) : (setResult v s).r = v := rfl
@[simp] theorem setResult_w (v : Word) (s : State) : (setResult v s).w = s.w := rfl
@[simp] theorem setResult_sc (v : Word) (s : State) : (setResult v s).sc = s.sc := rfl
@[simp] theorem setResult_wv (v : Word) (s : State) : (setResult v s).wv = s.wv := rfl
@[simp] theorem setResult_rc (v : Word) (s : State) : (setResult v s).rc = s.rc := rfl
@[simp] theorem setResult_h (v : Word) (s : State) : (setResult v s).h = s.h := rfl
@[simp] theorem setResult_hv (v : Word) (s : State) : (setResult v s).hv = s.hv := rfl
@[simp] theorem setResult_dg (v : Word) (s : State) : (setResult v s).dg = s.dg := rfl
@[simp] theorem setResult_dv (v : Word) (s : State) : (setResult v s).dv = s.dv := rfl
@[simp] theorem setResult_err (v : Word) (s : State) : (setResult v s).err = s.err := rfl
@[simp] theorem setResult_ecode (v : Word) (s : State) : (setResult v s).ecode = s.ecode := rfl
@[simp] theorem setResult_bus (v : Word) (s : State) : (setResult v s).bus = s.bus := rfl
@[simp] theorem setResult_rdata (v : Word) (s : State) : (setResult v s).rdata = s.rdata := rfl
@[simp] theorem setResult_resets (v : Word) (s : State) : (setResult v s).resets = s.resets := rfl

/-! ### accumulateStep (R151) -/

@[simp] theorem accumulateStep_x (s : State) : (accumulateStep s).x = s.x := rfl
@[simp] theorem accumulateStep_y (s : State) : (accumulateStep s).y = s.y := rfl
@[simp] theorem accumulateStep_z (s : State) : (accumulateStep s).z = s.z := rfl
@[simp] theorem accumulateStep_r (s : State) : (accumulateStep s).r = s.r := rfl
@[simp] theorem accumulateStep_w (s : State) : (accumulateStep s).w = s.w := rfl
@[simp] theorem accumulateStep_sc (s : State) : (accumulateStep s).sc = 0 := rfl
@[simp] theorem accumulateStep_wv (s : State) : (accumulateStep s).wv = s.wv := rfl
@[simp] theorem accumulateStep_rc (s : State) : (accumulateStep s).rc = 0 := rfl
@[simp] theorem accumulateStep_h (s : State) : (accumulateStep s).h = Vector.ofFn fun k => s.h[k] + s.wv[k] := rfl
@[simp] theorem accumulateStep_hv (s : State) : (accumulateStep s).hv = s.hv := rfl
@[simp] theorem accumulateStep_dg (s : State) : (accumulateStep s).dg = s.dg := rfl
@[simp] theorem accumulateStep_dv (s : State) : (accumulateStep s).dv = s.dv := rfl
@[simp] theorem accumulateStep_err (s : State) : (accumulateStep s).err = s.err := rfl
@[simp] theorem accumulateStep_ecode (s : State) : (accumulateStep s).ecode = s.ecode := rfl
@[simp] theorem accumulateStep_bus (s : State) : (accumulateStep s).bus = s.bus := rfl
@[simp] theorem accumulateStep_rdata (s : State) : (accumulateStep s).rdata = s.rdata := rfl
@[simp] theorem accumulateStep_resets (s : State) : (accumulateStep s).resets = s.resets := rfl

/-- An error recorded while one is recorded already changes nothing (R182). -/
theorem recordError_of_err (c : ECode) (s : State) (h : s.err = true) : recordError c s = s := by
  cases s; simp_all [recordError]

/-- The first error since ERR was cleared sets the code (R182). -/
theorem recordError_of_clear (c : ECode) (s : State) (h : s.err = false) : recordError c s = { s with err := true, ecode := c } := by
  simp [recordError, h]

end Sys2Proof.Machine
end

