-- ==== Sys2Proof/Laws/Ops.lean ====
section
/-! SUPPORT. What each shared operation can do, said once: the push (R130), the expansion step and its loop (R131, R133), the round step
and its loop (R141, R143). Later proofs cite these and never unfold the operations. -/

namespace Sys2Proof.Machine

/-! ### The schedule as a function of its index -/

theorem State.schedule_eq (s : State) {i : Nat} (h : i < 64) : s.schedule i = s.w[i] := by
  rw [State.schedule, Vector.getElem?_eq_getElem h, Option.getD_some]

/-- Past W[63] there is nothing (no rule reads there). -/
theorem State.schedule_past (s : State) {i : Nat} (h : 64 ≤ i) : s.schedule i = 0 := by
  rw [State.schedule, Vector.getElem?_eq_none h, Option.getD_none]

theorem State.schedule_congr {s t : State} (h : t.w = s.w) (i : Nat) : t.schedule i = s.schedule i := by
  rw [State.schedule, State.schedule, h]

/-- Two schedules that agree at every index are the same. -/
theorem w_eq_of_schedule {s t : State} (h : ∀ i < 64, t.schedule i = s.schedule i) : t.w = s.w := by
  apply Vector.ext
  intro i hi
  have := h i hi
  rwa [State.schedule_eq t hi, State.schedule_eq s hi] at this

/-- The schedule after W[j] <- v. -/
theorem schedule_of_set {s t : State} {j : Nat} {v : Word} (hj : j < 64) (h : t.w = s.w.set j v) (i : Nat) :
    t.schedule i = if i = j then v else s.schedule i := by
  by_cases hi : i < 64
  · rw [State.schedule_eq t hi, State.schedule_eq s hi]
    simp only [h, Vector.getElem_set]
    by_cases e : i = j
    · rw [if_pos e, if_pos e.symm]
    · rw [if_neg e, if_neg (Ne.symm e)]
  · rw [State.schedule_past t (by omega), State.schedule_past s (by omega), if_neg (by omega)]

theorem roundConst_eq {i : Nat} (h : i < 64) : Sha256.roundConst i = K[i] := by
  rw [Sha256.roundConst, Vector.getElem?_eq_getElem h, Option.getD_some]

/-! ### The push of a block word (R130) -/

theorem msgIn_full (v : Word) (s : State) (h : 16 ≤ s.sc.val) : msgIn v s = .next (recordError .seqSched s) := by
  simp [msgIn, h, raiseError]

theorem msgIn_push (v : Word) (s : State) (h : s.sc.val < 16) :
    ∃ t, msgIn v s = .next t ∧ t = { s with w := t.w, sc := t.sc } ∧ t.sc.val = s.sc.val + 1 ∧
      ∀ i, t.schedule i = if i = s.sc.val then v else s.schedule i := by
  have h' : ¬ 16 ≤ s.sc.val := by omega
  simp only [msgIn, h', dite_false]
  exact ⟨_, rfl, rfl, rfl, schedule_of_set (by omega) rfl⟩

/-! ### The expansion step (R131) and its loop (R133) -/

/-- The value of W[i] by the recurrence of R131. -/
def State.nextWord (s : State) (i : Nat) : Word :=
  s.schedule (i - 16) + ssig0 (s.schedule (i - 15)) + s.schedule (i - 7) + ssig1 (s.schedule (i - 2))

theorem expandStep_frame (s : State) : expandStep s = { s with w := (expandStep s).w, sc := (expandStep s).sc } := by
  unfold expandStep
  split <;> rfl

theorem expandStep_sc (s : State) (h : 16 ≤ s.sc.val) (h' : s.sc.val < 64) : (expandStep s).sc.val = s.sc.val + 1 := by
  simp [expandStep, h, h']

theorem expandStep_schedule (s : State) (h : 16 ≤ s.sc.val) (h' : s.sc.val < 64) (i : Nat) :
    (expandStep s).schedule i = if i = s.sc.val then s.nextWord i else s.schedule i := by
  have e : (expandStep s).w = s.w.set s.sc.val (s.nextWord s.sc.val) := by
    have h16 : s.sc.val - 16 < 64 := by omega
    have h15 : s.sc.val - 15 < 64 := by omega
    have h7 : s.sc.val - 7 < 64 := by omega
    have h2 : s.sc.val - 2 < 64 := by omega
    simp only [expandStep, h, h', and_self, dite_true, State.nextWord, State.schedule_eq s h16, State.schedule_eq s h15,
      State.schedule_eq s h7, State.schedule_eq s h2]
  rw [schedule_of_set h' e i]
  split <;> simp_all

theorem expandRest_done (s : State) (h : s.sc.val = 64) : expandRest s = s := by
  simp [expandRest, h, repeatStep]

theorem expandRest_next (s : State) (h : 16 ≤ s.sc.val) (h' : s.sc.val < 64) : expandRest s = expandRest (expandStep s) := by
  have e : 64 - s.sc.val = (64 - (s.sc.val + 1)) + 1 := by omega
  simp only [expandRest, expandStep_sc s h h', e, repeatStep]

/-- To prove something of `expandRest` from SC ≥ 16 on: it holds at SC = 64, and at SC it holds if it holds after one more step. -/
theorem expandRest_induction {P : State → Prop} (done : ∀ s, s.sc.val = 64 → P s)
    (next : ∀ s, 16 ≤ s.sc.val → s.sc.val < 64 → P (expandStep s) → P s) (s : State) (h : 16 ≤ s.sc.val) : P s := by
  generalize hn : 64 - s.sc.val = n
  induction n generalizing s with
  | zero => exact done s (by omega)
  | succ n ih =>
    have h' : s.sc.val < 64 := by omega
    have hs := expandStep_sc s h h'
    exact next s h h' (ih _ (by omega) (by omega))

theorem expandRest_frame (s : State) (h : 16 ≤ s.sc.val) :
    expandRest s = { s with w := (expandRest s).w, sc := (expandRest s).sc } := by
  refine expandRest_induction (P := fun s => expandRest s = { s with w := (expandRest s).w, sc := (expandRest s).sc }) ?_ ?_ s h
  · intro s hs; rw [expandRest_done s hs]
  · intro s h h' ih
    rw [expandRest_next s h h', ih, expandStep_frame s]

theorem expandRest_sc (s : State) (h : 16 ≤ s.sc.val) : (expandRest s).sc.val = 64 := by
  refine expandRest_induction (P := fun s => (expandRest s).sc.val = 64) ?_ ?_ s h
  · intro s hs; rw [expandRest_done s hs, hs]
  · intro s h h' ih; rw [expandRest_next s h h', ih]

/-- The words that were valid before an expansion stay. -/
theorem expandRest_keeps (s : State) (h : 16 ≤ s.sc.val) : ∀ i < s.sc.val, (expandRest s).schedule i = s.schedule i := by
  refine expandRest_induction (P := fun s => ∀ i < s.sc.val, (expandRest s).schedule i = s.schedule i) ?_ ?_ s h
  · intro s hs i _; rw [expandRest_done s hs]
  · intro s h h' ih i hi
    rw [expandRest_next s h h', ih i (by rw [expandStep_sc s h h']; omega), expandStep_schedule s h h', if_neg (by omega)]

/-- The words an expansion adds are the recurrence's, in the state it leaves. -/
theorem expandRest_adds (s : State) (h : 16 ≤ s.sc.val) :
    ∀ i, s.sc.val ≤ i → i < 64 → (expandRest s).schedule i = (expandRest s).nextWord i := by
  refine expandRest_induction
    (P := fun s => ∀ i, s.sc.val ≤ i → i < 64 → (expandRest s).schedule i = (expandRest s).nextWord i) ?_ ?_ s h
  · intro s hs i _ _; omega
  · intro s h h' ih i hi hi'
    rw [expandRest_next s h h']
    have hsc := expandStep_sc s h h'
    by_cases e : i = s.sc.val
    · have keep := expandRest_keeps (expandStep s) (by omega)
      rw [hsc] at keep
      simp only [State.nextWord]
      rw [keep i (by omega), keep (i - 16) (by omega), keep (i - 15) (by omega), keep (i - 7) (by omega), keep (i - 2) (by omega)]
      simp only [expandStep_schedule s h h', e, if_true, State.nextWord]
      rw [if_neg (by omega), if_neg (by omega), if_neg (by omega), if_neg (by omega)]
    · exact ih i (by omega) hi'

/-! ### The round step (R141) and its loop (R143) -/

theorem roundStep_frame (s : State) : roundStep s = { s with wv := (roundStep s).wv, rc := (roundStep s).rc } := by
  unfold roundStep
  split <;> rfl

theorem roundStep_rc (s : State) (h : s.rc.val < 64) : (roundStep s).rc.val = s.rc.val + 1 := by
  simp [roundStep, h]

theorem roundStep_wv (s : State) (h : s.rc.val < 64) :
    (roundStep s).wv = roundVars (roundInput s) (Sha256.roundConst s.rc.val) (s.schedule s.rc.val) := by
  simp only [roundStep, h, dite_true, roundConst_eq h, State.schedule_eq s h]

theorem roundInput_of_pos (s : State) (h : 0 < s.rc.val) : roundInput s = s.wv := by
  simp [roundInput, show s.rc.val ≠ 0 by omega]

theorem roundsRest_done (s : State) (h : s.rc.val = 64) : roundsRest s = s := by
  simp [roundsRest, h, repeatStep]

theorem roundsRest_next (s : State) (h : s.rc.val < 64) : roundsRest s = roundsRest (roundStep s) := by
  have e : 64 - s.rc.val = (64 - (s.rc.val + 1)) + 1 := by omega
  simp only [roundsRest, roundStep_rc s h, e, repeatStep]

/-- To prove something of `roundsRest`: it holds at RC = 64, and at RC it holds if it holds after one more round. -/
theorem roundsRest_induction {P : State → Prop} (done : ∀ s, s.rc.val = 64 → P s)
    (next : ∀ s, s.rc.val < 64 → P (roundStep s) → P s) (s : State) : P s := by
  generalize hn : 64 - s.rc.val = n
  induction n generalizing s with
  | zero => exact done s (by have := s.rc.isLt; omega)
  | succ n ih =>
    have h' : s.rc.val < 64 := by omega
    have hs := roundStep_rc s h'
    exact next s h' (ih _ (by omega))

theorem roundsRest_frame (s : State) : roundsRest s = { s with wv := (roundsRest s).wv, rc := (roundsRest s).rc } := by
  refine roundsRest_induction (P := fun s => roundsRest s = { s with wv := (roundsRest s).wv, rc := (roundsRest s).rc }) ?_ ?_ s
  · intro s hs; rw [roundsRest_done s hs]
  · intro s h ih
    rw [roundsRest_next s h, ih, roundStep_frame s]

theorem roundsRest_rc (s : State) : (roundsRest s).rc.val = 64 := by
  refine roundsRest_induction (P := fun s => (roundsRest s).rc.val = 64) ?_ ?_ s
  · intro s hs; rw [roundsRest_done s hs, hs]
  · intro s h ih; rw [roundsRest_next s h, ih]

/-- The working variables the remaining rounds leave: any sequence that starts at this round's input and follows R141 ends at them. -/
theorem roundsRest_wv (s : State) (vars : Nat → Vector Word 8) (h0 : vars s.rc.val = roundInput s)
    (hn : ∀ i, s.rc.val ≤ i → i < 64 → vars (i + 1) = roundVars (vars i) (Sha256.roundConst i) (s.schedule i)) :
    (roundsRest s).wv = vars 64 := by
  refine roundsRest_induction (P := fun s => vars s.rc.val = roundInput s →
    (∀ i, s.rc.val ≤ i → i < 64 → vars (i + 1) = roundVars (vars i) (Sha256.roundConst i) (s.schedule i)) →
    (roundsRest s).wv = vars 64) ?_ ?_ s h0 hn
  · intro s hs h0 _
    rw [roundsRest_done s hs, ← hs, h0, roundInput_of_pos s (by omega)]
  · intro s h ih h0 hn
    rw [roundsRest_next s h]
    have hrc := roundStep_rc s h
    have hw : (roundStep s).w = s.w := by rw [roundStep_frame s]
    apply ih
    · rw [hrc, roundInput_of_pos _ (by omega), roundStep_wv s h, hn _ (Nat.le_refl _) h, h0]
    · intro i hi hi'
      rw [State.schedule_congr hw]
      exact hn i (by omega) hi'

end Sys2Proof.Machine
end

