-- ==== Sys2Proof/Laws/Window.lean ====
section
/-! SUPPORT. The window and the command write, said once: what a read of each offset depends on (R52), and when the bus write of a word
is a command (R85). -/

namespace Sys2Proof.Machine

/-! ### Reads (R52) -/

theorem memRead_h (s : State) (i : Fin 8) : memRead (0x040 + 4 * i.val) s = s.h[i] := by
  have := i.isLt
  unfold memRead
  rw [if_neg (by omega), if_neg (by omega), if_neg (by omega), if_neg (by omega), if_neg (by omega), dif_pos (by omega)]
  congr 1
  omega

theorem memRead_wv (s : State) (i : Fin 8) : memRead (0x060 + 4 * i.val) s = s.wv[i] := by
  have := i.isLt
  unfold memRead
  rw [if_neg (by omega), if_neg (by omega), if_neg (by omega), if_neg (by omega), if_neg (by omega), dif_neg (by omega),
    dif_pos (by omega)]
  congr 1
  omega

theorem memRead_dg (s : State) (k : Fin 16) : memRead (0x080 + 4 * k.val) s = s.dg[k] := by
  have := k.isLt
  unfold memRead
  rw [if_neg (by omega), if_neg (by omega), if_neg (by omega), if_neg (by omega), if_neg (by omega), dif_neg (by omega),
    dif_neg (by omega), dif_pos (by omega)]
  congr 1
  omega

theorem memRead_w (s : State) (j : Fin 64) : memRead (0x100 + 4 * j.val) s = s.w[j] := by
  have := j.isLt
  unfold memRead
  rw [if_neg (by omega), if_neg (by omega), if_neg (by omega), if_neg (by omega), if_neg (by omega), dif_neg (by omega),
    dif_neg (by omega), dif_neg (by omega), dif_pos (by omega)]
  congr 1
  omega

/-- Two states with the same W, H, WV and DG read alike at every offset where X, Y, Z, R and STATUS do. -/
theorem memRead_congr {s t : State} (hw : t.w = s.w) (hh : t.h = s.h) (hv : t.wv = s.wv) (hd : t.dg = s.dg) (off : Nat)
    (h4 : off = 0x004 → statusWord t = statusWord s) (hx : off = 0x010 → t.x = s.x) (hy : off = 0x014 → t.y = s.y)
    (hz : off = 0x018 → t.z = s.z) (hr : off = 0x01C → t.r = s.r) : memRead off t = memRead off s := by
  unfold memRead
  by_cases e : off = 0x004
  · rw [if_pos e, if_pos e]; exact h4 e
  rw [if_neg e, if_neg e]; clear e
  by_cases e : off = 0x010
  · rw [if_pos e, if_pos e]; exact hx e
  rw [if_neg e, if_neg e]; clear e
  by_cases e : off = 0x014
  · rw [if_pos e, if_pos e]; exact hy e
  rw [if_neg e, if_neg e]; clear e
  by_cases e : off = 0x018
  · rw [if_pos e, if_pos e]; exact hz e
  rw [if_neg e, if_neg e]; clear e
  by_cases e : off = 0x01C
  · rw [if_pos e, if_pos e]; exact hr e
  rw [if_neg e, if_neg e]; clear e
  simp only [hw, hh, hv, hd]

/-! ### The command write (R85) -/

theorem execute_ok {v : Word} {i : Instr} (h : decode v = .ok i) (s : State) : execute v s = exec i s := by
  simp [execute, h]

theorem execute_illegal {v : Word} (h : decode v = .error .illegalOpcode) (s : State) :
    execute v s = .next (recordError .illegalOpcode s) := by
  simp [execute, h, decodeCode, raiseError]

theorem execute_bad {v : Word} (h : decode v = .error .badField) (s : State) :
    execute v s = .next (recordError .badField s) := by
  simp [execute, h, decodeCode, raiseError]

/-- A well-formed command answers as the bus write of its word. -/
theorem runs_of_exec {i : Instr} {word : Word} {s t : State} (hw : decode word = .ok i) (h : exec i s = .next t) :
    Runs i word s t :=
  ⟨h, by rw [execute_ok hw, h]⟩

/-- The decode errors of a command without an immediate (R84). -/
theorem badFieldsRefused (i : Instr) (h : takesAmount (opcodeOf i) = false) (s : State) : BadFieldsRefused (opcodeOf i) s := by
  intro v ho hf
  have hi : immediateOf i = 0#8 := by cases i <;> first | rfl | exact Bool.noConfusion (show true = false from h)
  have hc : ∃ i', commandOf (opcField v) (immField v) = some i' ∧ opcodeOf i' = opcodeOf i ∧ immediateOf i' = 0#8 := by
    rw [ho]
    cases i <;> first | exact ⟨_, rfl, rfl, rfl⟩ | exact Bool.noConfusion (show true = false from h)
  obtain ⟨i', hc, _, hi'⟩ := hc
  apply execute_bad
  apply decode_bad v hc
  left
  intro e
  subst e
  rw [rsvField_encode, immField_encode, hi'] at hf
  rcases hf with hf | hf <;> exact hf rfl

end Sys2Proof.Machine
end

