-- ==== Sys2Proof/Laws/Run.lean ====
section
/-! SUPPORT. Running a list of host events: one event at a time, and a command's effect does not depend on what is still to come on the
bus nor on what was read last. -/

namespace Sys2Proof.Machine

/-- A state with the model's own record of the bus replaced. -/
def State.onBus (s : State) (bus : List HostEvent) (rdata : Option Word) : State := { s with bus := bus, rdata := rdata }

@[simp] theorem onBus_onBus (s : State) (b b' : List HostEvent) (d d' : Option Word) : (s.onBus b d).onBus b' d' = s.onBus b' d' := rfl

theorem onBus_self (s : State) : s.onBus s.bus s.rdata = s := rfl

theorem expandStep_onBus (s : State) (b : List HostEvent) (d : Option Word) :
    expandStep (s.onBus b d) = (expandStep s).onBus b d := by
  by_cases h : 16 ≤ s.sc.val ∧ s.sc.val < 64
  · have h' : 16 ≤ (s.onBus b d).sc.val ∧ (s.onBus b d).sc.val < 64 := h
    rw [expandStep, expandStep, dif_pos h, dif_pos h']
    rfl
  · have h' : ¬ (16 ≤ (s.onBus b d).sc.val ∧ (s.onBus b d).sc.val < 64) := h
    rw [expandStep, expandStep, dif_neg h, dif_neg h']

theorem roundStep_onBus (s : State) (b : List HostEvent) (d : Option Word) :
    roundStep (s.onBus b d) = (roundStep s).onBus b d := by
  by_cases h : s.rc.val < 64
  · have h' : (s.onBus b d).rc.val < 64 := h
    rw [roundStep, roundStep, dif_pos h, dif_pos h']
    rfl
  · have h' : ¬ (s.onBus b d).rc.val < 64 := h
    rw [roundStep, roundStep, dif_neg h, dif_neg h']

theorem repeatStep_onBus {f : State → State} {b : List HostEvent} {d : Option Word} (hf : ∀ s, f (s.onBus b d) = (f s).onBus b d)
    (n : Nat) (s : State) : repeatStep f n (s.onBus b d) = (repeatStep f n s).onBus b d := by
  induction n generalizing s with
  | zero => rfl
  | succ n ih => rw [repeatStep, repeatStep, hf, ih]

theorem expandRest_onBus (s : State) (b : List HostEvent) (d : Option Word) :
    expandRest (s.onBus b d) = (expandRest s).onBus b d :=
  repeatStep_onBus (fun s => expandStep_onBus s b d) _ s

theorem roundsRest_onBus (s : State) (b : List HostEvent) (d : Option Word) :
    roundsRest (s.onBus b d) = (roundsRest s).onBus b d :=
  repeatStep_onBus (fun s => roundStep_onBus s b d) _ s

/-- A command reads and writes nothing of the bus. -/
theorem exec_onBus {i : Instr} {s t : State} (h : exec i s = .next t) (b : List HostEvent) (d : Option Word) :
    exec i (s.onBus b d) = .next (t.onBus b d) := by
  cases i with
  | exp1 =>
    simp only [exec, execExp1] at h ⊢
    rw [expandStep_onBus]
    by_cases c : s.sc.val < 16 ∨ s.sc.val = 64
    · rw [if_pos c] at h; cases h; rw [if_pos (by exact c)]; rfl
    · rw [if_neg c] at h; cases h; rw [if_neg (by exact c)]
  | expall =>
    simp only [exec, execExpall] at h ⊢
    rw [expandRest_onBus]
    by_cases c : s.sc.val < 16
    · rw [if_pos c] at h; cases h; rw [if_pos (by exact c)]; rfl
    · rw [if_neg c] at h; cases h; rw [if_neg (by exact c)]
  | rnd1 =>
    simp only [exec, execRnd1] at h ⊢
    rw [roundStep_onBus]
    by_cases c : s.rc.val = 0 ∧ s.hv = false
    · rw [if_pos c] at h; cases h; rw [if_pos (by exact c)]; rfl
    · rw [if_neg c] at h
      rw [if_neg (by exact c)]
      by_cases c' : s.rc.val = 64 ∨ s.sc.val ≤ s.rc.val
      · rw [if_pos c'] at h; cases h; rw [if_pos (by exact c')]; rfl
      · rw [if_neg c'] at h; cases h; rw [if_neg (by exact c')]
  | rndall =>
    simp only [exec, execRndall] at h ⊢
    rw [roundsRest_onBus]
    by_cases c : s.rc.val = 0 ∧ s.hv = false
    · rw [if_pos c] at h; cases h; rw [if_pos (by exact c)]; rfl
    · rw [if_neg c] at h
      rw [if_neg (by exact c)]
      by_cases c' : s.sc.val < 64
      · rw [if_pos c'] at h; cases h; rw [if_pos (by exact c')]; rfl
      · rw [if_neg c'] at h; cases h; rw [if_neg (by exact c')]
  | block =>
    simp only [exec, execBlock] at h ⊢
    rw [expandRest_onBus, roundsRest_onBus]
    by_cases c : s.rc.val = 0 ∧ s.hv = false
    · rw [if_pos c] at h; cases h; rw [if_pos (by exact c)]; rfl
    · rw [if_neg c] at h
      rw [if_neg (by exact c)]
      by_cases c' : s.sc.val < 16
      · rw [if_pos c'] at h; cases h; rw [if_pos (by exact c')]; rfl
      · rw [if_neg c'] at h; cases h; rw [if_neg (by exact c')]; rfl
  | accum =>
    simp only [exec, execAccum] at h ⊢
    by_cases c : s.rc.val ≠ 64
    · rw [if_pos c] at h; cases h; rw [if_pos (by exact c)]; rfl
    · rw [if_neg c] at h; cases h; rw [if_neg (by exact c)]; rfl
  | encode =>
    simp only [exec, execEncode] at h ⊢
    by_cases c : s.hv = false
    · rw [if_pos c] at h; cases h; rw [if_pos (by exact c)]; rfl
    · rw [if_neg c] at h; cases h; rw [if_neg (by exact c)]; rfl
  | _ => cases h; rfl

/-! ### Runs -/

/-- The bus write of a command's word is the command. -/
theorem perform_cmdWrite {w : Word} {i : Instr} (hw : decode w = .ok i) (s : State) :
    perform (cmdWrite w) s = exec i (s.onBus s.bus none) := by
  show execute w _ = _
  exact execute_ok hw _

theorem run_zero (s : State) : core.run 0 s = .next s := rfl

/-- A run whose first event answers a next state goes on from there. -/
theorem run_succ {s t : State} (n : Nat) (h : step s = .next t) : core.run (n + 1) s = core.run n t := by
  have h' : core.step s = .next t := h
  simp only [Host.Core.run, h']

/-- A step with a command next on the bus. -/
theorem step_command {s t : State} {w : Word} {i : Instr} {rest : List HostEvent} (hb : s.bus = cmdWrite w :: rest)
    (hw : decode w = .ok i) (h : exec i s = .next t) : step s = .next (t.onBus rest none) := by
  simp only [step, hb]
  rw [perform_cmdWrite hw]
  exact exec_onBus h rest none

/-- A run of `m + n` events is the run of `m` and then of `n`. -/
theorem run_add {s t : State} (m n : Nat) (h : core.run m s = .next t) : core.run (m + n) s = core.run n t := by
  induction m generalizing s with
  | zero =>
    rw [run_zero] at h
    cases h
    rw [Nat.zero_add]
  | succ m ih =>
    cases hs : step s with
    | next u =>
      rw [run_succ m hs] at h
      rw [Nat.succ_add, run_succ _ hs, ih h]
    | fault r => exact nomatch r
    | refused r =>
      have h' : core.step s = .refused r := hs
      simp only [Host.Core.run, h'] at h
      cases h

end Sys2Proof.Machine
end

