-- ==== Sys2Proof/Laws/Exec.lean ====
section
/-! SUPPORT. What a command can do, said once: the error it records, if any, and otherwise its effect (`exec_eq`). Later proofs take a
command apart by this lemma and never unfold the meanings. -/

namespace Sys2Proof.Machine

/-- The error a command of its own checks records in a state, in the order its rule lists them (R181, R184). -/
def errorOf : Instr → State → Option ECode
  | .exp1, s => if s.sc.val < 16 ∨ s.sc.val = 64 then some .seqSched else none
  | .expall, s => if s.sc.val < 16 then some .seqSched else none
  | .rnd1, s =>
    if s.rc.val = 0 ∧ s.hv = false then some .notInit
    else if s.rc.val = 64 ∨ s.sc.val ≤ s.rc.val then some .seqRound
    else none
  | .rndall, s =>
    if s.rc.val = 0 ∧ s.hv = false then some .notInit
    else if s.sc.val < 64 then some .seqRound
    else none
  | .accum, s => if s.rc.val ≠ 64 then some .seqAccum else none
  | .block, s =>
    if s.rc.val = 0 ∧ s.hv = false then some .notInit
    else if s.sc.val < 16 then some .seqSched
    else none
  | .encode, s => if s.hv = false then some .notInit else none
  | _, _ => none

/-- What a command does when it records no error. -/
def effectOf : Instr → State → State
  | .nop, s => s
  | .srst, s => { s with sc := 0, rc := 0, hv := false, dv := false, err := false, ecode := .none }
  | .init, s => { s with h := H_INITIAL, hv := true, sc := 0, rc := 0 }
  | .rotr imm, s => setResult (rotr s.x (amount imm)) s
  | .shr imm, s => setResult (shr s.x (amount imm)) s
  | .ch, s => setResult (ch s.x s.y s.z) s
  | .maj, s => setResult (maj s.x s.y s.z) s
  | .bsig0, s => setResult (bsig0 s.x) s
  | .bsig1, s => setResult (bsig1 s.x) s
  | .ssig0, s => setResult (ssig0 s.x) s
  | .ssig1, s => setResult (ssig1 s.x) s
  | .add, s => setResult (s.x + s.y) s
  | .exp1, s => expandStep s
  | .expall, s => expandRest s
  | .rnd1, s => roundStep s
  | .rndall, s => roundsRest s
  | .accum, s => accumulateStep s
  | .block, s => accumulateStep (roundsRest (expandRest s))
  | .encode, s => { s with dg := digestWords s.h, dv := true }

/-- Every command either records the error of its checks and nothing else, or has its effect. -/
theorem exec_eq (i : Instr) (s : State) :
    exec i s = .next (match errorOf i s with | some c => recordError c s | none => effectOf i s) := by
  cases i with
  | exp1 => simp only [exec, execExp1, errorOf]; split <;> rfl
  | expall => simp only [exec, execExpall, errorOf]; split <;> rfl
  | rnd1 => simp only [exec, execRnd1, errorOf]; split <;> first | rfl | (split <;> rfl)
  | rndall => simp only [exec, execRndall, errorOf]; split <;> first | rfl | (split <;> rfl)
  | accum => simp only [exec, execAccum, errorOf]; split <;> rfl
  | block => simp only [exec, execBlock, errorOf]; split <;> first | rfl | (split <;> rfl)
  | encode => simp only [exec, execEncode, errorOf]; split <;> rfl
  | _ => rfl

theorem exec_error {i : Instr} {s : State} {c : ECode} (h : errorOf i s = some c) : exec i s = .next (recordError c s) := by
  rw [exec_eq, h]

theorem exec_effect {i : Instr} {s : State} (h : errorOf i s = none) : exec i s = .next (effectOf i s) := by
  rw [exec_eq, h]

/-- The two cases of a command's next state. -/
theorem exec_cases {i : Instr} {s t : State} (h : exec i s = .next t) :
    (∃ c, errorOf i s = some c ∧ t = recordError c s) ∨ (errorOf i s = none ∧ t = effectOf i s) := by
  cases he : errorOf i s with
  | some c => rw [exec_error he] at h; cases h; exact .inl ⟨c, rfl, rfl⟩
  | none => rw [exec_effect he] at h; cases h; exact .inr ⟨rfl, rfl⟩

/-- What the state guarantees when an effect takes place. -/
theorem exp1_enabled {s : State} (h : errorOf .exp1 s = none) : 16 ≤ s.sc.val ∧ s.sc.val < 64 := by
  simp only [errorOf] at h
  split at h
  · cases h
  · have := s.sc.isLt; omega

theorem expall_enabled {s : State} (h : errorOf .expall s = none) : 16 ≤ s.sc.val := by
  simp only [errorOf] at h
  split at h
  · cases h
  · omega

theorem rnd1_enabled {s : State} (h : errorOf .rnd1 s = none) :
    (s.rc.val = 0 → s.hv = true) ∧ s.rc.val < 64 ∧ s.rc.val < s.sc.val := by
  simp only [errorOf] at h
  split at h
  · cases h
  · rename_i c
    split at h
    · cases h
    · have := s.rc.isLt
      exact ⟨fun e => by simpa [e] using c, by omega, by omega⟩

theorem rndall_enabled {s : State} (h : errorOf .rndall s = none) : (s.rc.val = 0 → s.hv = true) ∧ s.sc.val = 64 := by
  simp only [errorOf] at h
  split at h
  · cases h
  · rename_i c
    split at h
    · cases h
    · have := s.sc.isLt
      exact ⟨fun e => by simpa [e] using c, by omega⟩

theorem block_enabled {s : State} (h : errorOf .block s = none) : (s.rc.val = 0 → s.hv = true) ∧ 16 ≤ s.sc.val := by
  simp only [errorOf] at h
  split at h
  · cases h
  · rename_i c
    split at h
    · cases h
    · exact ⟨fun e => by simpa [e] using c, by omega⟩

theorem accum_enabled {s : State} (h : errorOf .accum s = none) : s.rc.val = 64 := by
  simp only [errorOf] at h
  split at h
  · cases h
  · omega

theorem encode_enabled {s : State} (h : errorOf .encode s = none) : s.hv = true := by
  simp only [errorOf] at h
  split at h
  · cases h
  · simpa using ‹¬ s.hv = false›

end Sys2Proof.Machine
end

