-- ==== Sys2Proof/Laws/Operands.lean ====
section
/-! SUPPORT. The word functions bit by bit (R110 of 41_word_alu.md) and the amount of a rotation or shift (R81 of 30_encoding.md). -/

namespace Sys2Proof.Machine

/-- Bit i of a rotation is bit i + n of the operand, around (R110). -/
theorem rotr_bit (x : Word) {n : Nat} (hn : n < 32) {i : Nat} (hi : i < 32) :
    (rotr x n).getLsbD i = x.getLsbD ((i + n) % 32) := by
  unfold rotr
  by_cases h0 : n = 0
  · rw [if_pos h0, h0, Nat.add_zero, Nat.mod_eq_of_lt hi]
  · rw [if_neg h0, BitVec.getLsbD_or, BitVec.getLsbD_ushiftRight, BitVec.getLsbD_shiftLeft]
    by_cases h : i + n < 32
    · rw [Nat.mod_eq_of_lt h, Nat.add_comm n i]; simp [hi, show i < 32 - n by omega]
    · have e : (i + n) % 32 = i - (32 - n) := by omega
      have hx : x.getLsbD (n + i) = false := BitVec.getLsbD_of_ge _ _ (by omega)
      rw [e, hx]
      simp [hi, show ¬ i < 32 - n by omega]

/-- Bit i of a logical shift is bit i + n of the operand, or 0 past bit 31 (R110). -/
theorem shr_bit (x : Word) (n i : Nat) : (shr x n).getLsbD i = (decide (i + n < 32) && x.getLsbD (i + n)) := by
  rw [shr, BitVec.getLsbD_ushiftRight, Nat.add_comm n i]
  by_cases h : i + n < 32
  · simp [h]
  · simp [h, BitVec.getLsbD_of_ge x (i + n) (by omega)]

/-- The spec's rotation is the library's (R110). -/
theorem rotr_eq_rotateRight (x : Word) {n : Nat} (hn : n < 32) : rotr x n = x.rotateRight n := by
  apply BitVec.eq_of_getLsbD_eq
  intro i hi
  rw [rotr_bit x hn hi, BitVec.getLsbD_rotateRight]
  rw [Nat.mod_eq_of_lt hn]
  by_cases h : i < 32 - n
  · simp only [h, decide_true, cond_true]; rw [Nat.mod_eq_of_lt (by omega), Nat.add_comm]
  · simp only [h, decide_false, cond_false]
    have e : (i + n) % 32 = i - (32 - n) := by omega
    rw [e]; simp [hi]

/-- Of a well-formed immediate the amount is all (R81). -/
theorem amount_eq {imm : BitVec 8} (h : imm.extractLsb' 5 3 = 0) : amount imm = imm.toNat := by
  have := congrArg BitVec.toNat h
  simp [amount] at *
  omega

/-- The amount is always 0 to 31 (R81). -/
theorem amount_lt (imm : BitVec 8) : amount imm < 32 := (imm.extractLsb' 0 5).isLt

end Sys2Proof.Machine
end

