-- ==== Sys2Proof/Laws/PerInstr.lean ====
section
/-! SUPPORT. The family RoundTrip of LAWS.json: what decoding the word of each command gives (R81, R83, R84), one lemma a command. -/

namespace Sys2Proof.Laws.RoundTrip

/-- Decoding a command's word reads it back, or refuses it with BAD_FIELD where its IMM[7:5] is not 0. -/
def Statement (i : Instr) : Prop := decode (encode i) = if i.wf then .ok i else .error .badField

/-- The one proof of the family: a word is read back when the command is well-formed, and is a bad field otherwise. -/
theorem of_wf (i : Instr) : Statement i := by
  unfold Statement
  split
  · exact decode_encode i (by assumption)
  · exact decode_bad _ (by rw [opcField_encode, immField_encode, commandOf_opcodeOf]) (.inr (by simp_all))

theorem nop : Statement .nop := of_wf _
theorem srst : Statement .srst := of_wf _
theorem init : Statement .init := of_wf _
theorem rotr (imm : BitVec 8) : Statement (.rotr imm) := of_wf _
theorem shr (imm : BitVec 8) : Statement (.shr imm) := of_wf _
theorem ch : Statement .ch := of_wf _
theorem maj : Statement .maj := of_wf _
theorem bsig0 : Statement .bsig0 := of_wf _
theorem bsig1 : Statement .bsig1 := of_wf _
theorem ssig0 : Statement .ssig0 := of_wf _
theorem ssig1 : Statement .ssig1 := of_wf _
theorem add : Statement .add := of_wf _
theorem exp1 : Statement .exp1 := of_wf _
theorem expall : Statement .expall := of_wf _
theorem rnd1 : Statement .rnd1 := of_wf _
theorem rndall : Statement .rndall := of_wf _
theorem accum : Statement .accum := of_wf _
theorem block : Statement .block := of_wf _
theorem encode : Statement .encode := of_wf _

end Sys2Proof.Laws.RoundTrip
end

