-- ==== Sys2Proof/Laws/Step.lean ====
section
/-! SUPPORT. What one step can do, said once (`step_cases`), and that every operation a step is made of keeps the invariants of
Safety.lean. -/

namespace Sys2Proof.Machine

/-- What a step that answers a next state has done. -/
inductive StepCase (s t : State) : Prop
  /-- Nothing was on the bus. -/
  | idle (h : t = s)
  /-- A read (R52), which changes nothing of the core; or a write of STATUS with bit 2 clear (R34). -/
  | unchanged (b : List HostEvent) (d : Option Word) (h : t = s.onBus b d)
  /-- A command (R85). -/
  | command (i : Instr) (b : List HostEvent) (h : exec i (s.onBus b none) = .next t)
  /-- An error of the decode, of MSG_IN or of a bus write (R182). -/
  | error (c : ECode) (b : List HostEvent) (hc : c ≠ .none) (h : t = recordError c (s.onBus b none))
  /-- A write of STATUS with bit 2 set (R187). -/
  | clear (b : List HostEvent) (h : t = clearError (s.onBus b none))
  /-- A write of X, Y or Z (R23). -/
  | operand (x y z : Word) (b : List HostEvent) (h : t = { s.onBus b none with x := x, y := y, z := z })
  /-- A push of a block word (R130). -/
  | push (v : Word) (b : List HostEvent) (hsc : s.sc.val < 16) (h : msgIn v (s.onBus b none) = .next t)
  /-- A hardware reset (R200). -/
  | reset (b : List HostEvent) (h : t = hardReset { s with bus := b })

theorem registerWrite_cases {s t : State} {off : Nat} {v : Word} {b : List HostEvent}
    (h : registerWrite off v (s.onBus b none) = .next t) : StepCase s t := by
  unfold registerWrite at h
  split at h
  · cases h
    unfold writeStatus
    split
    · exact .clear b rfl
    · exact .unchanged b none rfl
  split at h
  · cases h; exact .operand v s.y s.z b rfl
  split at h
  · cases h; exact .operand s.x v s.z b rfl
  split at h
  · cases h; exact .operand s.x s.y v b rfl
  split at h
  · by_cases hsc : s.sc.val < 16
    · exact .push v b hsc h
    · rw [msgIn_full v _ (by show 16 ≤ s.sc.val; omega)] at h
      cases h
      exact .error .seqSched b (by decide) rfl
  · cases h; exact .error .busWrite b (by decide) rfl

theorem step_cases {s t : State} (h : step s = .next t) : StepCase s t := by
  unfold step at h
  split at h
  · cases h; exact .idle rfl
  · rename_i e b _
    cases e with
    | reset => cases h; exact .reset b rfl
    | read addr bytes =>
      simp only [perform] at h
      split at h
      · cases h; exact .unchanged b _ rfl
      · cases h
    | write addr bytes v =>
      simp only [perform] at h
      split at h
      · rename_i off _
        unfold memWrite at h
        split at h
        · unfold execute at h
          split at h
          · exact .command _ b h
          · rename_i e _
            cases h
            exact .error (decodeCode e) b (by cases e <;> decide) rfl
        · exact registerWrite_cases h
      · cases h

/-! ### R36 -/

theorem inv_recordError {s : State} (hs : s.Inv) {c : ECode} (hc : c ≠ .none) : (recordError c s).Inv := by
  refine ⟨hs.rc_le_sc, hs.hv_of_rc, ?_⟩
  cases he : s.err with
  | false => simp [he, hc]
  | true => simpa [he] using (hs.code_iff_err.mpr he)

theorem inv_expandStep {s : State} (hs : s.Inv) : (expandStep s).Inv := by
  by_cases h : 16 ≤ s.sc.val ∧ s.sc.val < 64
  · have hsc := expandStep_sc s h.1 h.2
    have hf := expandStep_frame s
    have hrc : (expandStep s).rc = s.rc := by rw [hf]
    refine ⟨by have := hs.rc_le_sc; rw [hrc]; omega, ?_, ?_⟩
    · rw [hf]; exact hs.hv_of_rc
    · rw [hf]; exact hs.code_iff_err
  · rw [expandStep, dif_neg h]; exact hs

theorem inv_expandRest {s : State} (hs : s.Inv) (h : 16 ≤ s.sc.val) : (expandRest s).Inv := by
  refine expandRest_induction (P := fun s => s.Inv → (expandRest s).Inv) ?_ ?_ s h hs
  · intro s hsc hs; rw [expandRest_done s hsc]; exact hs
  · intro s h h' ih hs; rw [expandRest_next s h h']; exact ih (inv_expandStep hs)

theorem inv_roundStep {s : State} (hs : s.Inv) (hv : s.rc.val = 0 → s.hv = true) (h : s.rc.val < s.sc.val) :
    (roundStep s).Inv := by
  have h64 : s.rc.val < 64 := by have := s.sc.isLt; omega
  have hrc := roundStep_rc s h64
  have hf := roundStep_frame s
  have hsc : (roundStep s).sc = s.sc := by rw [hf]
  have hhv : (roundStep s).hv = s.hv := by rw [hf]
  refine ⟨by rw [hsc]; omega, ?_, ?_⟩
  · intro _
    rw [hhv]
    by_cases h0 : s.rc.val = 0
    · exact hv h0
    · exact hs.hv_of_rc (by omega)
  · rw [hf]; exact hs.code_iff_err

theorem inv_roundsRest {s : State} (hs : s.Inv) (hv : s.rc.val = 0 → s.hv = true) (h : s.sc.val = 64) : (roundsRest s).Inv := by
  refine roundsRest_induction
    (P := fun s => s.Inv → (s.rc.val = 0 → s.hv = true) → s.sc.val = 64 → (roundsRest s).Inv) ?_ ?_ s hs hv h
  · intro s hrc hs _ _; rw [roundsRest_done s hrc]; exact hs
  · intro s h ih hs hv hsc
    rw [roundsRest_next s h]
    have hrc := roundStep_rc s h
    refine ih (inv_roundStep hs hv (by omega)) (by omega) ?_
    rw [roundStep_frame s]; exact hsc

/-! ### The meaning of SC (R26, R131) -/

theorem scheduleOk_congr {s t : State} (hw : t.w = s.w) (hsc : t.sc = s.sc) (hs : s.ScheduleOk) : t.ScheduleOk := by
  intro i h16 hi
  simp only [State.schedule_congr hw]
  exact hs i h16 (by rw [← hsc]; exact hi)

/-- With no word past W[15] valid there is nothing to keep. -/
theorem scheduleOk_of_short {t : State} (h : t.sc.val ≤ 16) : t.ScheduleOk := by
  intro i _ _; omega

theorem scheduleOk_expandRest {s : State} (hs : s.ScheduleOk) (h : 16 ≤ s.sc.val) : (expandRest s).ScheduleOk := by
  intro i h16 hi
  rw [expandRest_sc s h] at hi
  by_cases hlt : i < s.sc.val
  · have keep := expandRest_keeps s h
    rw [keep i hlt, keep (i - 16) (by omega), keep (i - 15) (by omega), keep (i - 7) (by omega), keep (i - 2) (by omega)]
    exact hs i h16 hlt
  · exact expandRest_adds s h i (by omega) hi

theorem scheduleOk_expandStep {s : State} (hs : s.ScheduleOk) (h : 16 ≤ s.sc.val) (h' : s.sc.val < 64) :
    (expandStep s).ScheduleOk := by
  intro i h16 hi
  rw [expandStep_sc s h h'] at hi
  simp only [expandStep_schedule s h h']
  rw [if_neg (show ¬ i - 16 = s.sc.val by omega), if_neg (show ¬ i - 15 = s.sc.val by omega),
    if_neg (show ¬ i - 7 = s.sc.val by omega), if_neg (show ¬ i - 2 = s.sc.val by omega)]
  by_cases e : i = s.sc.val
  · rw [if_pos e]; rfl
  · rw [if_neg e]; exact hs i h16 (by omega)

/-! ### The meaning of RC (R28, R141) -/

/-- The rounds done depend on the schedule below RC only. -/
theorem rounds_congr {h : Vector Word 8} {w w' : Nat → Word} {n : Nat} (e : ∀ i < n, w' i = w i) :
    Sha256.rounds h w' n = Sha256.rounds h w n := by
  induction n with
  | zero => rfl
  | succ n ih => rw [Sha256.rounds, Sha256.rounds, ih (fun i hi => e i (by omega)), e n (by omega)]

theorem roundsOk_congr {s t : State} (hwv : t.wv = s.wv) (hrc : t.rc = s.rc) (hh : t.h = s.h)
    (hw : ∀ i < s.rc.val, t.schedule i = s.schedule i) (hs : s.RoundsOk) : t.RoundsOk := by
  intro h
  rw [hwv, hh, hrc, rounds_congr hw]
  rw [hrc] at h
  exact hs h

theorem roundsOk_of_zero {t : State} (h : t.rc.val = 0) : t.RoundsOk := by
  intro h'; omega

/-- A round's input is what the rounds before it made of H. -/
theorem roundInput_eq {s : State} (hs : s.RoundsOk) : roundInput s = Sha256.rounds s.h s.schedule s.rc.val := by
  by_cases h : s.rc.val = 0
  · simp [roundInput, h, Sha256.rounds]
  · rw [roundInput_of_pos s (by omega), hs (by omega)]

theorem roundsOk_roundStep {s : State} (hs : s.RoundsOk) (h : s.rc.val < 64) : (roundStep s).RoundsOk := by
  intro _
  have hf := roundStep_frame s
  have hw : (roundStep s).w = s.w := by rw [hf]
  have hh : (roundStep s).h = s.h := by rw [hf]
  have hsch : (roundStep s).schedule = s.schedule := by funext i; exact State.schedule_congr hw i
  rw [roundStep_wv s h, roundStep_rc s h, hh, hsch, Sha256.rounds, roundInput_eq hs]

theorem roundsOk_roundsRest {s : State} (hs : s.RoundsOk) : (roundsRest s).RoundsOk := by
  refine roundsRest_induction (P := fun s => s.RoundsOk → (roundsRest s).RoundsOk) ?_ ?_ s hs
  · intro s hrc hs; rw [roundsRest_done s hrc]; exact hs
  · intro s h ih hs; rw [roundsRest_next s h]; exact ih (roundsOk_roundStep hs h)

end Sys2Proof.Machine
end

