-- ==== Sys2Proof/Laws/Sequence.lean ====
section
/-! SUPPORT. Sequences of bus accesses: a run of pushes, a run of reads, what keeps an error recorded, that every write of the window
answers a next state; and the schedule of a state as that of its block. -/

namespace Sys2Proof.Machine

/-- Where the counters mean what they say, the valid schedule words are the block's schedule (R131). -/
theorem schedule_is_schedWord {s : State} (hs : s.ScheduleOk) :
    ∀ i < s.sc.val, s.schedule i = Sha256.schedWord s.blockWords i := by
  have hsc := s.sc.isLt
  intro i
  induction i using Nat.strongRecOn with
  | _ i ih =>
    intro hi
    rw [Sha256.schedWord]
    by_cases h : i < 16
    · rw [dif_pos h, State.blockWords, Vector.getElem_ofFn, State.schedule_eq s (by omega)]
    · rw [dif_neg h, hs i (by omega) hi, ih (i - 16) (by omega) (by omega), ih (i - 15) (by omega) (by omega),
        ih (i - 7) (by omega) (by omega), ih (i - 2) (by omega) (by omega)]

/-- A push answers a next state, whether it appends or records SEQ_SCHED (R130). -/
theorem msgIn_next (v : Word) (s : State) : ∃ t, msgIn v s = .next t ∧ t.bus = s.bus := by
  by_cases hsc : s.sc.val < 16
  · obtain ⟨u, e1, e2, _⟩ := msgIn_push v s hsc
    exact ⟨u, e1, by rw [e2]⟩
  · exact ⟨_, msgIn_full v s (by omega), rfl⟩

/-- Every bus write of the window answers a next state (R53, R183). -/
theorem memWrite_next (off : Nat) (v : Word) (s : State) : ∃ t, memWrite off v s = .next t := by
  cases h : memWrite off v s with
  | next t => exact ⟨t, rfl⟩
  | fault f => exact nomatch f
  | refused r =>
    exfalso
    unfold memWrite at h
    split at h
    · unfold execute at h
      split at h
      · rw [exec_eq] at h; cases h
      · cases h
    · unfold registerWrite at h
      obtain ⟨t, ht, _⟩ := msgIn_next v s
      rw [ht] at h
      simp only [raiseError] at h
      split at h
      · cases h
      split at h
      · cases h
      split at h
      · cases h
      split at h
      · cases h
      split at h <;> cases h

/-- ERR is sticky: no command but SRST clears it (R33). -/
theorem exec_err_stays {i : Instr} {s t : State} (h : exec i s = .next t) (hi : i ≠ .srst) (he : s.err = true) :
    t.err = true := by
  rcases exec_cases h with ⟨c, hc, rfl⟩ | ⟨hc, rfl⟩
  · exact recordError_err _ _
  · cases i with
    | srst => exact absurd rfl hi
    | exp1 => simp only [effectOf]; rw [expandStep_frame]; exact he
    | expall => simp only [effectOf]; rw [expandRest_frame s (expall_enabled hc)]; exact he
    | rnd1 => simp only [effectOf]; rw [roundStep_frame]; exact he
    | rndall => simp only [effectOf]; rw [roundsRest_frame]; exact he
    | block => simp only [effectOf]; rw [roundsRest_frame, expandRest_frame s (block_enabled hc).2]; exact he
    | _ => exact he

/-- A run of pushes that fit (R130). -/
theorem run_pushes (rest : List HostEvent) (l : List Word) :
    ∀ s : State, s.bus = l.map pushw ++ rest → s.sc.val + l.length ≤ 16 →
    ∃ t, core.run l.length s = .next t ∧ t = { s with w := t.w, sc := t.sc, bus := rest, rdata := t.rdata } ∧
      t.sc.val = s.sc.val + l.length ∧
      ∀ i, t.schedule i =
        if s.sc.val ≤ i ∧ i < s.sc.val + l.length then l.getD (i - s.sc.val) 0 else s.schedule i := by
  induction l with
  | nil =>
    intro s hb _
    have hb : s.bus = rest := hb
    exact ⟨s, rfl, by rw [← hb], rfl, fun i => by rw [if_neg (by simp only [List.length_nil]; omega)]⟩
  | cons v l ih =>
    intro s hb hl
    rw [List.length_cons] at hl
    rw [List.map_cons, List.cons_append] at hb
    have hsc : (s.onBus (l.map pushw ++ rest) none).sc.val < 16 := by show s.sc.val < 16; omega
    obtain ⟨u, h1, h2, h3, h4⟩ := msgIn_push v _ hsc
    have hstep : step s = .next u := by
      simp only [step, hb]; exact h1
    have h3' : u.sc.val = s.sc.val + 1 := h3
    obtain ⟨t, g1, g2, g3, g4⟩ := ih u (by rw [h2]; rfl) (by omega)
    refine ⟨t, by rw [List.length_cons, run_succ _ hstep, g1], ?_, by rw [g3, h3', List.length_cons]; omega, ?_⟩
    · rw [g2, h2]; rfl
    · intro i
      rw [g4, h4, h3', List.length_cons]
      by_cases c : i = s.sc.val
      · rw [if_neg (by omega), if_pos (show i = (s.onBus _ none).sc.val from c), if_pos (by omega), c, Nat.sub_self]
        rfl
      · by_cases c' : s.sc.val + 1 ≤ i ∧ i < s.sc.val + 1 + l.length
        · rw [if_pos c', if_pos (by omega),
            show i - s.sc.val = (i - (s.sc.val + 1)) + 1 by omega, List.getD_cons_succ]
        · rw [if_neg c', if_neg (show ¬ i = (s.onBus _ none).sc.val from c), if_neg (by omega)]
          rfl

/-- A run of reads changes no state and leaves the last value on the bus (R52). -/
theorem run_reads (rest : List HostEvent) (l : List (BitVec 9)) :
    ∀ s : State, s.bus = l.map rd ++ rest → (∀ o ∈ l, o.toNat % 4 = 0) →
    core.run l.length s =
      .next (s.onBus rest (if h : l = [] then s.rdata else some (memRead (l.getLast h).toNat s))) := by
  induction l with
  | nil => intro s hb _; rw [← show s.bus = rest from hb]; rfl
  | cons o l ih =>
    intro s hb ho
    have hs : step s = .next (s.onBus (l.map rd ++ rest) (some (memRead o.toNat s))) := by
      simp only [step, hb]
      show perform (rd o) _ = _
      simp only [rd, perform, accessOffset, ho o (by simp)]
      rfl
    rw [List.length_cons, run_succ _ hs, ih _ rfl (fun o h => ho o (by simp [h]))]
    by_cases h : l = []
    · subst h; rfl
    · rw [dif_neg h, dif_neg (by simp), List.getLast_cons h]; rfl

end Sys2Proof.Machine
end

