-- ==== Sys2Proof/Laws/Status.lean ====
section
/-! SUPPORT. The STATUS register bit by bit (R34 of 10_state.md), and the width of what its fields hold. -/

namespace Sys2Proof.Machine

/-- A flag is bit 0 of its word. -/
theorem flagWord_getLsbD (b : Bool) (i : Nat) : (flagWord b).getLsbD i = (decide (i = 0) && b) := by
  cases b <;> simp [flagWord, BitVec.getLsbD_one]

/-- A bit of STATUS (R34). -/
theorem statusWord_getLsbD (s : State) {i : Nat} (hi : i < 32) :
    (statusWord s).getLsbD i =
      ((decide (16 ≤ i) && s.rc.val.testBit (i - 16)) || (decide (8 ≤ i) && s.sc.val.testBit (i - 8)) ||
        (decide (4 ≤ i) && (ecodeBits s.ecode).getLsbD (i - 4)) || (decide (i = 2) && s.err) || (decide (i = 1) && s.dv) ||
        (decide (i = 0) && s.hv)) := by
  simp only [statusWord, BitVec.getLsbD_or, BitVec.getLsbD_shiftLeft, BitVec.getLsbD_ofNat, BitVec.getLsbD_setWidth,
    flagWord_getLsbD, hi, decide_true, Bool.true_and]
  by_cases h1 : i = 1
  · subst h1; simp
  by_cases h2 : i = 2
  · subst h2; simp
  by_cases h0 : i = 0
  · subst h0; simp
  by_cases h3 : i = 3
  · subst h3; simp
  have h4 : 4 ≤ i := by omega
  have a1 : ¬ i < 1 := by omega
  have a2 : ¬ i < 2 := by omega
  have a3 : ¬ i - 2 = 0 := by omega
  have a4 : ¬ i - 1 = 0 := by omega
  have a5 : ¬ i < 4 := by omega
  have a6 : i - 4 < 32 := by omega
  have a7 : i - 8 < 32 := by omega
  have a8 : i - 16 < 32 := by omega
  by_cases b8 : i < 8 <;> by_cases b16 : i < 16 <;>
    simp [*, show (8 ≤ i) = ¬ i < 8 by simp, show (16 ≤ i) = ¬ i < 16 by simp]

/-- A count of 0 to 64 has 7 bits (R26, R28). -/
theorem count_testBit (n : Fin 65) {i : Nat} (h : 7 ≤ i) : n.val.testBit i = false :=
  Nat.testBit_lt_two_pow (Nat.lt_of_lt_of_le (show n.val < 2 ^ 7 by omega) (Nat.pow_le_pow_right (by decide) h))

/-- A 7-bit field whose bits are a count's is that count. -/
theorem count_toNat (n : Fin 65) (w : BitVec 7) (h : ∀ i, i < 7 → w.getLsbD i = n.val.testBit i) : w.toNat = n.val := by
  apply Nat.eq_of_testBit_eq
  intro i
  by_cases hi : i < 7
  · rw [← h i hi]; rfl
  · rw [count_testBit n (by omega)]
    exact Nat.testBit_lt_two_pow (Nat.lt_of_lt_of_le w.isLt (Nat.pow_le_pow_right (by decide) (by omega)))

/-- An error code has 4 bits (R33). -/
theorem ecodeBits_high (c : ECode) {i : Nat} (h : 4 ≤ i) : (ecodeBits c).getLsbD i = false := BitVec.getLsbD_of_ge _ _ h

/-- The error codes are told apart by their numbers (R181). -/
theorem ecodeBits_inj : ∀ c d : ECode, ecodeBits c = ecodeBits d → c = d := by
  intro c d
  cases c <;> cases d <;> decide

end Sys2Proof.Machine
end

