-- ==== Sys2Proof/Tests/Slice0.lean ====
section
/-! SUPPORT. The model's own tests. Expected values are the spec's worked examples and vectors (95_test_vectors.md and the Example lines
of the rules), or read off R83's bit patterns by hand. Below them stands, for each statement that has hypotheses, a witness that meets
them. -/

namespace Sys2Proof.Tests

open Sys2Proof.Machine

/-! ### Small states -/

/-- One draw of the UNSPEC registers, all 0, with counters and HV of the test's choice. -/
def counts (sc rc : Fin 65) (hv : Bool) : State := { State.resetWith (fun _ => 0) with sc := sc, rc := rc, hv := hv }

/-- A state with the ALU operands set. -/
def alu (x y z : Word) : State := { counts 0 0 false with x := x, y := y, z := z }

/-- The padded block of "abc" (V-SRC-2), its 16 words pushed after INIT. -/
def abc : State :=
  { counts 16 0 true with
    h := H_INITIAL, w := Vector.ofFn fun j => if j.val = 0 then 0x61626380 else if j.val = 15 then 0x00000018 else 0 }

/-- A state with the error flag set. -/
def failed (c : ECode) (s : State) : State := { s with err := true, ecode := c }

/-- A state with events to come. -/
def withBus (bus : List HostEvent) (s : State) : State := { s with bus := bus }

/-- A property of the next state of an outcome (false of a stop). -/
def next (o : Host.Outcome State Fault Refusal) (p : State → Bool) : Bool :=
  match o with
  | .next t => p t
  | _ => false

/-! ### Well-formedness: each check refuses an ill-formed term (R81) -/

theorem test_wf_refuses_rotr_32 : (Instr.rotr 0x20).wf = false := by decide
theorem test_wf_refuses_shr_with_bit_7 : (Instr.shr 0x80).wf = false := by decide
theorem test_wf_takes_amount_31 : (Instr.rotr 31).wf = true ∧ (Instr.shr 31).wf = true := by decide

/-! ### Decoding: every command from its word of R83 -/

theorem test_decode_nop : decode 0b00000000000000000000000000000000 = .ok .nop := rfl
theorem test_decode_srst : decode 0b00000001000000000000000000000000 = .ok .srst := rfl
theorem test_decode_init : decode 0b00000010000000000000000000000000 = .ok .init := rfl
theorem test_decode_rotr_7 : decode 0b00010000000000000000000000000111 = .ok (.rotr 7) := rfl
theorem test_decode_shr_10 : decode 0b00010001000000000000000000001010 = .ok (.shr 10) := rfl
theorem test_decode_ch : decode 0b00010010000000000000000000000000 = .ok .ch := rfl
theorem test_decode_maj : decode 0b00010011000000000000000000000000 = .ok .maj := rfl
theorem test_decode_bsig0 : decode 0b00010100000000000000000000000000 = .ok .bsig0 := rfl
theorem test_decode_bsig1 : decode 0b00010101000000000000000000000000 = .ok .bsig1 := rfl
theorem test_decode_ssig0 : decode 0b00010110000000000000000000000000 = .ok .ssig0 := rfl
theorem test_decode_ssig1 : decode 0b00010111000000000000000000000000 = .ok .ssig1 := rfl
theorem test_decode_add : decode 0b00011000000000000000000000000000 = .ok .add := rfl
theorem test_decode_exp1 : decode 0b00100000000000000000000000000000 = .ok .exp1 := rfl
theorem test_decode_expall : decode 0b00100001000000000000000000000000 = .ok .expall := rfl
theorem test_decode_rnd1 : decode 0b00110000000000000000000000000000 = .ok .rnd1 := rfl
theorem test_decode_rndall : decode 0b00110001000000000000000000000000 = .ok .rndall := rfl
theorem test_decode_accum : decode 0b00110010000000000000000000000000 = .ok .accum := rfl
theorem test_decode_block : decode 0b00110011000000000000000000000000 = .ok .block := rfl
theorem test_decode_encode : decode 0b01000000000000000000000000000000 = .ok .encode := rfl

/-- R84: unassigned opcodes next to assigned ones, whatever the other fields hold. -/
theorem test_decode_illegal : decode 0x03000000 = .error .illegalOpcode ∧ decode 0x19FFFFFF = .error .illegalOpcode ∧
    decode 0x34000000 = .error .illegalOpcode ∧ decode 0xFF000001 = .error .illegalOpcode := ⟨rfl, rfl, rfl, rfl⟩

/-- R84: RSV or IMM bits that must be 0. -/
theorem test_decode_bad_field : decode 0x10000020 = .error .badField ∧ decode 0x11000080 = .error .badField ∧
    decode 0x12000001 = .error .badField ∧ decode 0x00000100 = .error .badField ∧ decode 0x10800001 = .error .badField :=
  ⟨rfl, rfl, rfl, rfl, rfl⟩

theorem test_encode_words : encode (.rotr 31) = 0x1000001f ∧ encode (.shr 1) = 0x11000001 ∧ encode .expall = 0x21000000 := by decide
theorem test_decodeTableWord : decodeTableWord 32 0x1000001f = some (.rotr 31) ∧ decodeTableWord 32 0x03000000 = none := ⟨rfl, rfl⟩
theorem test_per_instr_reads_back : Laws.RoundTrip.Statement .encode := Laws.RoundTrip.encode

/-! ### Control (V-CTL) -/

theorem test_nop_keeps_error :
    exec .nop (failed .illegalOpcode (counts 0 0 true)) = .next (failed .illegalOpcode (counts 0 0 true)) := rfl
theorem test_srst_status : next (exec .srst (failed .seqRound { counts 64 64 true with dv := true })) (fun t => statusWord t == 0) := by
  decide
theorem test_init_h : next (exec .init (counts 2 1 true))
    (fun t => statusWord t == 1 && t.h[0] == 0x6a09e667 && t.h[7] == 0x5be0cd19) := by decide
theorem test_init_keeps_error : next (exec .init (failed .illegalOpcode { counts 0 0 true with dv := true }))
    (fun t => statusWord t == 0x00000017) := by decide

/-! ### The word ALU (V-ALU) -/

theorem test_rotr_1 : next (exec (.rotr 1) (alu 0x80000001 0 0)) (fun t => t.r == 0xc0000000) := by decide
theorem test_rotr_31 : next (exec (.rotr 31) (alu 0x12345678 0 0)) (fun t => t.r == 0x2468acf0) := by decide
theorem test_shr_10 : next (exec (.shr 10) (alu 0xffffffff 0 0)) (fun t => t.r == 0x003fffff) := by decide
theorem test_shr_0 : next (exec (.shr 0) (alu 0x80000001 0 0)) (fun t => t.r == 0x80000001) := by decide
theorem test_ch : next (exec .ch (alu 0xff00ff00 0x12345678 0x9abcdef0)) (fun t => t.r == 0x12bc56f0) := by decide
theorem test_maj : next (exec .maj (alu 0x6a09e667 0xbb67ae85 0x3c6ef372)) (fun t => t.r == 0x3a6fe667) := by decide
theorem test_bsig0 : next (exec .bsig0 (alu 0x12345678 0 0)) (fun t => t.r == 0x66146474) := by decide
theorem test_bsig1 : next (exec .bsig1 (alu 0x12345678 0 0)) (fun t => t.r == 0x3561abda) := by decide
theorem test_ssig0 : next (exec .ssig0 (alu 0x12345678 0 0)) (fun t => t.r == 0xe7fce6ee) := by decide
theorem test_ssig1 : next (exec .ssig1 (alu 0x12345678 0 0)) (fun t => t.r == 0xa1f78649) := by decide
theorem test_add : next (exec .add (alu 0x12345678 0x9abcdef0 0)) (fun t => t.r == 0xacf13568) := by decide
theorem test_add_wraps : next (exec .add (alu 0xffffffff 0x00000001 0)) (fun t => t.r == 0 && statusWord t == 0) := by decide

/-! ### The block of "abc" (V-DER-ABC and the Example lines of 42_schedule.md to 45_encoder.md) -/

theorem test_push : next (memWrite 0x020 0x61626380 (counts 0 0 false))
    (fun t => t.w[0] == 0x61626380 && statusWord t == 0x100) := by decide +kernel
theorem test_push_17th : next (memWrite 0x020 0 (counts 16 0 true)) (fun t => statusWord t == 0x00001045) := by decide +kernel
theorem test_exp1 : next (exec .exp1 { abc with sc := 17, w := abc.w.set 16 0x61626380 })
    (fun t => t.w[17] == 0x000f0000 && t.sc == 18) := by decide +kernel
theorem test_exp1_complete : next (exec .exp1 (counts 64 0 true)) (fun t => statusWord t == 0x00004045) := by decide +kernel
theorem test_expall : next (exec .expall abc) (fun t => t.w[63] == 0x12b1edeb && statusWord t == 0x00004001) := by decide +kernel
theorem test_rnd1 : next (exec .rnd1 abc) (fun t => t.wv ==
    #v[0x5d6aebcd, 0x6a09e667, 0xbb67ae85, 0x3c6ef372, 0xfa2a4622, 0x510e527f, 0x9b05688c, 0x1f83d9ab] && t.rc == 1) := by
  decide +kernel
theorem test_rnd1_needs_its_word : next (exec .rnd1 (counts 3 3 true)) (fun t => statusWord t == 0x00030355) := by decide +kernel
theorem test_rndall : next (exec .expall abc) (fun t => next (exec .rndall t) (fun t => t.wv ==
    #v[0x506e3058, 0xd39a2165, 0x04d24d6c, 0xb85e2ce9, 0x5ef50f24, 0xfb121210, 0x948d25b6, 0x961f4894] && t.rc == 64)) := by
  decide +kernel
theorem test_rndall_needs_all_words : next (exec .rndall abc) (fun t => statusWord t == 0x00001055) := by decide +kernel
theorem test_accum : next (exec .accum { counts 64 64 true with
      h := H_INITIAL
      wv := #v[0x506e3058, 0xd39a2165, 0x04d24d6c, 0xb85e2ce9, 0x5ef50f24, 0xfb121210, 0x948d25b6, 0x961f4894] })
    (fun t => t.h ==
      #v[0xba7816bf, 0x8f01cfea, 0x414140de, 0x5dae2223, 0xb00361a3, 0x96177a9c, 0xb410ff61, 0xf20015ad] && statusWord t == 1) := by
  decide +kernel
theorem test_accum_too_early : next (exec .accum (counts 0 0 true)) (fun t => statusWord t == 0x00000065) := by decide +kernel
/-- R153's own example, the padding of the empty message. -/
theorem test_block : next (exec .block { abc with w := (Vector.replicate 64 0).set 0 0x80000000 }) (fun t => t.h ==
    #v[0xe3b0c442, 0x98fc1c14, 0x9afbf4c8, 0x996fb924, 0x27ae41e4, 0x649b934c, 0xa495991b, 0x7852b855] && statusWord t == 1) := by
  decide +kernel
theorem test_block_not_init : next (exec .block (counts 3 0 false)) (fun t => statusWord t == 0x00000334) := by decide +kernel
theorem test_encode : next (exec .encode { counts 0 0 true with
      h := #v[0xba7816bf, 0x8f01cfea, 0x414140de, 0x5dae2223, 0xb00361a3, 0x96177a9c, 0xb410ff61, 0xf20015ad] })
    (fun t => t.dg[0] == 0x62613738 && t.dg[15] == 0x31356164 && statusWord t == 3) := by decide +kernel
theorem test_encode_not_init : next (exec .encode (counts 0 0 false)) (fun t => statusWord t == 0x00000034) := by decide +kernel

/-! ### The bus (P3 and P5 of 95_test_vectors.md) -/

theorem test_read_r : next (step (withBus [rdr] { counts 0 0 false with r := 3 }))
    (fun t => t.rdata == some 3 && t.bus == []) := by decide +kernel
theorem test_read_dg_15 : next (step (withBus [rddg 15] { counts 0 0 false with dg := Vector.ofFn fun k => BitVec.ofNat 32 k.val }))
    (fun t => t.rdata == some 15) := by decide +kernel
theorem test_read_unmapped : next (step (withBus [rd 0x0c0] (counts 64 0 true)))
    (fun t => t.rdata == some 0 && statusWord t == 0x4001) := by decide +kernel
theorem test_write_h_refused : next (step (withBus [wr 0x040 0x12345678] (counts 0 0 false)))
    (fun t => statusWord t == 0x74 && t.h[0] == 0) := by decide +kernel
theorem test_clrerr : next (step (withBus [clrerr] (failed .seqSched (counts 16 0 true)))) (fun t => statusWord t == 0x00001001) := by
  decide +kernel
theorem test_first_code_kept : next (step (withBus [cmdWrite 0x03000000] (failed .notInit (counts 0 0 false))))
    (fun t => statusWord t == 0x34) := by decide +kernel
theorem test_bad_field_ch : next (step (withBus [cmdWrite 0x12000001] (counts 0 0 false)))
    (fun t => statusWord t == 0x24) := by decide +kernel
theorem test_byte_access_refused : step (withBus [.read (.window 0x004) 1] (counts 0 0 false)) = .refused (.accessWidth 1) := rfl
theorem test_misaligned_refused : step (withBus [rd 0x006] (counts 0 0 false)) = .refused (.misalignedOffset 6) := rfl
theorem test_outside_refused :
    step (withBus [.write (.outside 0x1000) 4 0] (counts 0 0 false)) = .refused (.outsideWindow 0x1000) := rfl
theorem test_idle : step (counts 3 0 true) = .next (counts 3 0 true) := rfl
theorem test_reset_mid_block : next (step (withBus [.reset, rdstat] (failed .seqRound (counts 64 3 true))))
    (fun t => statusWord t == 0 && t.bus == [rdstat]) := by decide +kernel

/-- What the host asks: the first instruction after reset is the one placed by `withFetchWord`. -/
theorem test_fetch_rotr : step (State.reset.withFetchWord 32 0x1000001f) = exec (.rotr 31) State.reset := rfl
theorem test_fetch_encode : step (State.reset.withFetchWord 32 0x40000000) = exec .encode State.reset := rfl

/-! ### Padding (V-SRC-2, V-SRC-5) -/

theorem test_pad_zeros : [0, 1, 3, 5, 55, 56, 57, 63, 64, 65, 119, 120, 121].map padZeros =
    [55, 54, 52, 50, 0, 63, 62, 56, 55, 54, 0, 63, 62] := by decide
theorem test_block_count : [0, 55, 56, 64, 119, 120].map blockCount = [1, 1, 2, 2, 2, 3] := by decide
theorem test_abc_words : messageBlocks [0x61, 0x62, 0x63] =
    [#v[0x61626380, 0, 0, 0, 0, 0, 0, 0, 0, 0, 0, 0, 0, 0, 0, 0x00000018]] := by decide +kernel
theorem test_length_field : be64 0x1c0 = [0, 0, 0, 0, 0, 0, 0x01, 0xc0] ∧ be64 (2 ^ 61 * 8) = [0, 0, 0, 0, 0, 0, 0, 0] := by decide

/-! ### Witnesses: concrete inputs that meet the hypotheses of each statement -/

theorem witness_HardwareResetDrawsAnew : ∃ (s : State) (rest : List HostEvent), s.bus = .reset :: rest ∧ s.rc = 3 :=
  ⟨withBus [.reset, rdstat] (counts 64 3 true), [rdstat], rfl, rfl⟩

theorem witness_StatusRegisterFields : (0x00000004#32).getLsbD 2 = true ∧ (0xfffffffb#32).getLsbD 2 = false := by decide

/-- The bounds of the unmapped ranges. -/
theorem witness_WindowReadMap_unmapped : ∀ off ∈ [0x008, 0x00C, 0x024, 0x03C, 0x0C0, 0x0FC],
    off = 0x008 ∨ off = 0x00C ∨ (0x024 ≤ off ∧ off ≤ 0x03C) ∨ (0x0C0 ≤ off ∧ off ≤ 0x0FC) := by decide

theorem witness_BusAccessesStep_read : ∃ (s : State) (off : BitVec 9) (rest : List HostEvent),
    off.toNat % 4 = 0 ∧ s.bus = rd off :: rest :=
  ⟨withBus [rd 0x1fc] abc, 0x1fc, [], by decide, rfl⟩

theorem witness_BusAccessesStep_write : ∃ (s : State) (off : BitVec 9) (v : Word) (rest : List HostEvent),
    off.toNat % 4 = 0 ∧ s.bus = wr off v :: rest :=
  ⟨withBus [clrerr] abc, 0x004, 4, [], by decide, rfl⟩

theorem witness_WindowWriteMap_status : (0x00000004#32).getLsbD 2 = true ∧ (0xfffffffb#32).getLsbD 2 = false := by decide

/-- Offsets of the BUS_WRITE clause at the bounds of its ranges; each is outside every other clause. -/
theorem witness_WindowWriteMap_refused : ∀ off ∈ [0x008, 0x00C, 0x01C, 0x024, 0x040, 0x1FC],
    off ≠ 0x000 ∧ off ≠ 0x004 ∧ off ≠ 0x010 ∧ off ≠ 0x014 ∧ off ≠ 0x018 ∧ off ≠ 0x020 := by decide

theorem witness_OperandRegistersReadBack : ∀ off ∈ [0x010, 0x014, 0x018], off = 0x010 ∨ off = 0x014 ∨ off = 0x018 := by decide

theorem witness_ReadOnlyRegistersKeepTheirValues : ∀ off ∈ [0x008, 0x00C, 0x01C, 0x024, 0x1FC],
    off = 0x008 ∨ off = 0x00C ∨ off = 0x01C ∨ (0x024 ≤ off ∧ off ≤ 0x1FC) := by decide

theorem witness_AccessesOutsideTheInterfaceRefused_width : ∃ (s : State) (off : BitVec 9) (bytes : Nat) (rest : List HostEvent),
    s.bus = .read (.window off) bytes :: rest ∧ bytes ≠ 4 :=
  ⟨withBus [.read (.window 0x100) 8] abc, 0x100, 8, [], rfl, by decide⟩

theorem witness_AccessesOutsideTheInterfaceRefused_alignment : ∃ (s : State) (off : BitVec 9) (v : Word) (rest : List HostEvent),
    s.bus = .write (.window off) 4 v :: rest ∧ off.toNat % 4 ≠ 0 :=
  ⟨withBus [.write (.window 0x1ff) 4 0] abc, 0x1ff, 0, [], rfl, by decide⟩

/-- The first and the last byte of a window at 0x1000, and the bytes on either side of it. -/
theorem witness_WindowLiesAtBase : addrAt 0x1000 0x1000 = .window 0x000 ∧ addrAt 0x1000 0x11ff = .window 0x1ff ∧
    addrAt 0x1000 0x0fff = .outside 0x0fff ∧ addrAt 0x1000 0x1200 = .outside 0x1200 := by decide

theorem witness_WindowLiesAtBase_step : ∃ (s : State) (rest : List HostEvent), s.bus = .read (addrAt 0x1000 0x1200) 4 :: rest :=
  ⟨withBus [.read (addrAt 0x1000 0x1200) 4] abc, [], rfl⟩

theorem witness_DecodeEncodeAgree : (Instr.rotr 31).wf = true ∧ (Instr.shr 0x20).wf = false ∧ decode 0x1000001f = .ok (.rotr 31) :=
  ⟨by decide, by decide, rfl⟩

theorem witness_WordSpellsItsMnemonic : (Instr.encode, 0x40000000#32) ∈ [(Instr.nop, 0x00000000#32), (.encode, 0x40000000#32)] ∧
    decode 0x1100001f = .ok (.shr 31) := ⟨by decide, rfl⟩

/-- One word for each clause of `Execute`: unassigned OPC; RSV ≠ 0; IMM[7:5] ≠ 0 of ROTR; IMM ≠ 0 of NOP; and two that run. -/
theorem witness_ExecuteChecksInOrder :
    commandOf (opcField 0x03000000#32) 0 = none ∧ rsvField 0x12000100#32 ≠ 0 ∧ (immField 0x10000020#32).extractLsb' 5 3 ≠ 0 ∧
    immField 0x00000001#32 ≠ 0 ∧ (immField 0x1100001f#32).extractLsb' 5 3 = 0 ∧ rsvField 0x1100001f#32 = 0 ∧
    immField 0x40000000#32 = 0 ∧ rsvField 0x40000000#32 = 0 := by decide

theorem witness_StepRunsDecodedCommand : ∃ (s : State) (v : Word) (rest : List HostEvent) (i : Instr),
    s.bus = .write (.window 0x000) 4 v :: rest ∧ decode v = .ok i :=
  ⟨withBus [cmdWrite 0x33000000, rdstat] abc, 0x33000000, [rdstat], .block, rfl, rfl⟩

theorem witness_ErrorReportEnds : (0x00000004#32).getLsbD 2 = true ∧ (failed .badField abc).err = true := ⟨by decide, rfl⟩

theorem witness_RecordErrorKeepsFirstCode : abc.err = false ∧ (failed .badField abc).err = true := ⟨rfl, rfl⟩

/-- A command and a state for each error of ErrorsArePrecise. -/
theorem witness_ErrorsArePrecise : ∀ p ∈ [(Instr.encode, counts 0 0 false), (.rnd1, counts 1 0 false), (.rndall, counts 64 0 false),
      (.block, counts 16 0 false), (.exp1, counts 15 0 true), (.expall, counts 15 0 true), (.block, counts 15 0 true),
      (.exp1, counts 64 0 true), (.rnd1, counts 64 64 true), (.rnd1, counts 5 5 true), (.rndall, counts 63 1 true),
      (.accum, counts 64 63 true)],
    p.2.err = false ∧ next (exec p.1 p.2) (fun t => t.err) = true := by decide +kernel

theorem witness_RotateAndShiftByAmount : (0x1f#8).extractLsb' 5 3 = 0 ∧ opcField 0x10000020#32 = 0x10 ∧
    (immField 0x10000020#32).extractLsb' 5 3 ≠ 0 ∧ opcField 0x11000100#32 = 0x11 ∧ rsvField 0x11000100#32 ≠ 0 := by decide

/-- BadFieldsRefused has words to refuse for every OPC, with RSV and with IMM. -/
theorem witness_BadFieldsRefused : ∀ opc : BitVec 8, opcField (opc ++ 1#16 ++ 1#8) = opc ∧ rsvField (opc ++ 1#16 ++ 1#8) ≠ 0 ∧
    immField (opc ++ 1#16 ++ 1#8) ≠ 0 := by decide +kernel

theorem witness_AluReadsOperandsWritesResult : ∃ s s' : State, s.x = s'.x ∧ s.y = s'.y ∧ s.z = s'.z ∧ s.sc ≠ s'.sc :=
  ⟨alu 1 2 3, { alu 1 2 3 with sc := 5 }, rfl, rfl, rfl, by decide⟩

theorem witness_PushAppendsBlockWord : (counts 15 0 false).sc.val < 16 ∧ 16 ≤ (counts 16 0 false).sc.val := by decide

theorem witness_Exp1ExpandsOneWord : (16 ≤ (counts 16 0 false).sc.val ∧ (counts 16 0 false).sc.val < 64) ∧
    (16 ≤ (counts 63 0 false).sc.val ∧ (counts 63 0 false).sc.val < 64) ∧ (counts 15 0 false).sc.val < 16 ∧
    (counts 64 0 false).sc.val = 64 := by decide

theorem witness_ExpallExpandsTheRest : 16 ≤ (counts 16 0 false).sc.val ∧ 16 ≤ (counts 64 0 false).sc.val ∧
    (counts 15 0 false).sc.val < 16 := by decide

theorem witness_Exp1sMakeExpall : ∃ (s : State) (rest : List HostEvent), 16 ≤ s.sc.val ∧ s.sc.val < 64 ∧
    s.bus = List.replicate (64 - s.sc.val) (cmdWrite 0x20000000) ++ rest :=
  ⟨withBus (List.replicate 48 (cmdWrite 0x20000000) ++ [rdstat]) abc, [rdstat], by decide, by decide, rfl⟩

/-- The three clauses of RND1, at RC = 0, in the middle and at the 64th round. -/
theorem witness_Rnd1PerformsOneRound :
    ((counts 1 0 false).rc.val = 0 ∧ (counts 1 0 false).hv = false) ∧
    (¬ ((counts 0 0 true).rc.val = 0 ∧ (counts 0 0 true).hv = false) ∧ (counts 0 0 true).sc.val ≤ (counts 0 0 true).rc.val) ∧
    (counts 64 64 true).rc.val = 64 ∧
    (¬ ((counts 1 0 true).rc.val = 0 ∧ (counts 1 0 true).hv = false) ∧ (counts 1 0 true).rc.val < (counts 1 0 true).sc.val) ∧
    (counts 64 63 true).rc.val < 64 ∧ (counts 64 63 true).rc.val < (counts 64 63 true).sc.val := by decide

theorem witness_RndallPerformsTheRest :
    ((counts 64 0 false).rc.val = 0 ∧ (counts 64 0 false).hv = false) ∧
    (¬ ((counts 63 0 true).rc.val = 0 ∧ (counts 63 0 true).hv = false) ∧ (counts 63 0 true).sc.val < 64) ∧
    (¬ ((counts 64 0 true).rc.val = 0 ∧ (counts 64 0 true).hv = false) ∧ (counts 64 0 true).sc.val = 64) ∧
    (counts 64 64 true).rc.val = 64 := by decide

theorem witness_Rnd1sMakeRndall : ∃ (s : State) (rest : List HostEvent), s.sc.val = 64 ∧ s.rc.val < 64 ∧
    (s.rc.val = 0 → s.hv = true) ∧ s.bus = List.replicate (64 - s.rc.val) (cmdWrite 0x30000000) ++ rest :=
  ⟨withBus (List.replicate 64 (cmdWrite 0x30000000)) (counts 64 0 true), [], rfl, by decide, fun _ => rfl, rfl⟩

theorem witness_AccumFoldsTheBlock : (counts 64 64 true).rc.val = 64 ∧ (counts 64 63 true).rc.val ≠ 64 := by decide

theorem witness_BlockIsExpallRndallAccum :
    ((counts 16 0 false).rc.val = 0 ∧ (counts 16 0 false).hv = false) ∧
    (¬ ((counts 15 0 true).rc.val = 0 ∧ (counts 15 0 true).hv = false) ∧ (counts 15 0 true).sc.val < 16) ∧
    (¬ ((counts 16 0 true).rc.val = 0 ∧ (counts 16 0 true).hv = false) ∧ 16 ≤ (counts 16 0 true).sc.val) ∧
    (counts 64 64 true).rc.val = 64 ∧ (counts 64 64 true).sc.val = 64 := by decide

theorem witness_EncodeRendersHash : abc.hv = true ∧ (counts 0 0 false).hv = false := ⟨rfl, rfl⟩

theorem witness_DigestDeterminesHash : ∃ s s' t t' : State, exec .encode s = .next t ∧ exec .encode s' = .next t' ∧ s.hv = true ∧
    s'.hv = true ∧ t.dg = t'.dg :=
  ⟨abc, abc, _, _, rfl, rfl, rfl, rfl, rfl⟩

/-- The "abc" block, its 16 words pushed, has all that every run keeps true. -/
theorem abc_good : abc.Good :=
  ⟨⟨by decide, fun h => absurd h (by decide), by decide⟩, fun i h16 hi => absurd hi (by show ¬ i < 16; omega),
    fun h => absurd h (by decide), fun h => absurd h (by decide)⟩

theorem witness_InvariantKept : ∃ s t : State, s.Inv ∧ step s = .next t :=
  ⟨withBus [command .nop] abc, _, ⟨abc_good.inv.rc_le_sc, abc_good.inv.hv_of_rc, abc_good.inv.code_iff_err⟩, rfl⟩

theorem witness_CountersMeanWhatTheySay : ∃ s t : State, s.Inv ∧ s.ScheduleOk ∧ s.RoundsOk ∧ step s = .next t :=
  ⟨withBus [command .exp1] abc, _, ⟨abc_good.inv.rc_le_sc, abc_good.inv.hv_of_rc, abc_good.inv.code_iff_err⟩, abc_good.schedule,
    abc_good.rounds, rfl⟩

/-- A state with a digest of 64 characters '0' and DV = 1. -/
def zerosDigest : State := { abc with dg := Vector.replicate 16 0x30303030, dv := true }

theorem zerosDigest_ok : zerosDigest.DigestOk := by
  intro _ j
  unfold IsHexChar
  revert j
  decide +kernel

theorem witness_DigestStaysHexadecimal : ∃ s t : State, s.DigestOk ∧ s.dv = true ∧ step s = .next t :=
  ⟨withBus [command .init] zerosDigest, _, fun h j => zerosDigest_ok h j, rfl, rfl⟩

theorem witness_RegistersHaveOwners : ∃ (i : Instr) (s t : State), exec i s = .next t ∧ t.hv ≠ s.hv :=
  ⟨.init, counts 0 0 false, _, rfl, by decide⟩

theorem witness_CountersOnlyRiseOrClear : ∃ s t : State, step s = .next t ∧ s.sc.val ≠ t.sc.val :=
  ⟨withBus [command .srst] abc, _, rfl, by decide⟩

theorem witness_ControlIgnoresData : ∃ s s' t : State, s.SameControl s' ∧ step s = .next t ∧ s.h ≠ s'.h ∧ s.w ≠ s'.w :=
  ⟨withBus [command .rnd1] abc, withBus [command .rnd1] (counts 16 0 true), _, ⟨rfl, rfl, rfl, rfl, rfl, rfl, rfl⟩, rfl,
    by decide +kernel, by decide +kernel⟩

theorem witness_ControlIgnoresData_refused : step (withBus [rd 0x002] abc) = .refused (.misalignedOffset 2) := rfl

theorem witness_BlockComputesCompression : ∃ s : State, s.Inv ∧ s.ScheduleOk ∧ s.RoundsOk ∧ s.hv = true ∧ 16 ≤ s.sc.val :=
  ⟨abc, abc_good.inv, abc_good.schedule, abc_good.rounds, rfl, by decide⟩

/-- A block of zeros, expanded (every word is 0) and compressed: the clause of ACCUM. -/
theorem witness_BlockComputesCompression_accum :
    ∃ s : State, s.Inv ∧ s.ScheduleOk ∧ s.RoundsOk ∧ s.hv = true ∧ 16 ≤ s.sc.val ∧ s.rc.val = 64 := by
  let s : State := { counts 64 64 true with wv := Sha256.rounds (Vector.ofFn fun _ => 0) (fun _ => 0) 64 }
  have hz : ∀ i, s.schedule i = 0 := by
    intro i
    show (Vector.ofFn fun _ : Fin 64 => (0 : Word))[i]?.getD 0 = 0
    by_cases h : i < 64
    · rw [Vector.getElem?_eq_getElem h, Option.getD_some, Vector.getElem_ofFn]
    · rw [Vector.getElem?_eq_none (by omega), Option.getD_none]
  have hrc : s.rc.val = 64 := rfl
  have hs : s.schedule = fun _ => 0 := funext hz
  have hh : s.h = Vector.ofFn fun _ => 0 := rfl
  refine ⟨s, ⟨by decide, fun _ => rfl, ?_⟩, ?_, fun _ => (by rw [hrc, hs, hh]), rfl, by decide, hrc⟩
  · exact ⟨fun h => absurd rfl h, fun h => Bool.noConfusion h⟩
  · intro i _ _
    simp only [hz]
    decide

/-- The words of "abc" pushed, a round before the second word and an expansion and a round after the last, then BLOCK: the events meet
every hypothesis, and no error is recorded. -/
def interleaved : List HostEvent :=
  pushw 0x61626380 :: command .rnd1 :: (List.replicate 14 (pushw 0) ++ [pushw 0x18, command .exp1, command .rnd1])

theorem witness_EveryInterleavingGivesTheSameHash :
    ∃ (s : State) (b : Vector Word 16) (work : List HostEvent) (last : Instr) (rest : List HostEvent),
      s.hv = true ∧ s.sc = 0 ∧ s.rc = 0 ∧ s.Clean ∧
      (∀ e ∈ work, (∃ v, e = pushw v) ∨ e ∈ [command .exp1, command .expall, command .rnd1, command .rndall]) ∧
      work.filterMap pushedWord = b.toList ∧ (last = .accum ∨ last = .block) ∧ s.bus = work ++ command last :: rest ∧
      next (core.run (work.length + 1) s) (fun t => !t.err) = true := by
  refine ⟨withBus (interleaved ++ [command .block]) (counts 0 0 true),
    #v[0x61626380, 0, 0, 0, 0, 0, 0, 0, 0, 0, 0, 0, 0, 0, 0, 0x18], interleaved, .block, [], rfl, rfl, rfl, rfl, ?_, ?_,
    .inr rfl, rfl, ?_⟩
  · intro e he
    simp only [interleaved, List.mem_cons, List.mem_append, List.mem_replicate, List.not_mem_nil, or_false] at he
    rcases he with h | h | ⟨_, h⟩ | h | h | h
    · exact .inl ⟨_, h⟩
    · exact .inr (by simp [h])
    · exact .inl ⟨_, h⟩
    · exact .inl ⟨_, h⟩
    · exact .inr (by simp [h])
    · exact .inr (by simp [h])
  · decide
  · decide +kernel

theorem witness_BlocksFoldIntoHash : ∃ (s : State) (blocks : List (Vector Word 16 × Bool)) (rest : List HostEvent),
    s.bus = foldSequence blocks ++ rest ∧ blocks.length = 2 :=
  ⟨withBus (foldSequence [(Vector.replicate 16 1, true), (Vector.replicate 16 2, false)] ++ []) (counts 7 0 false), _, _, rfl, rfl⟩

/-- The least and a larger k at a length of 55, and the bounds of the zero bytes at a length of 56. -/
theorem witness_PaddingFillsWholeBlocks : (55 + 1 + 0) % 64 = 56 ∧ (55 + 1 + 64) % 64 = 56 ∧ 56 + 1 ≤ 57 ∧
    57 < 64 * blockCount 56 - 8 ∧ 119 < 64 * blockCount 56 - 8 := by decide

theorem witness_DigestSequenceHashesMessage : ∃ (s : State) (msg : List Byte) (rest : List HostEvent),
    s.bus = digestSequence msg ++ rest ∧ s.Inv ∧ s.Clean ∧ msg = [0x61, 0x62, 0x63] :=
  ⟨withBus (digestSequence [0x61, 0x62, 0x63] ++ []) abc, _, _, rfl,
    ⟨abc_good.inv.rc_le_sc, abc_good.inv.hv_of_rc, abc_good.inv.code_iff_err⟩, rfl, rfl⟩

end Sys2Proof.Tests
end

/-! # Proofs of the family 10_state.md: the state, its reset and its counters -/

namespace Sys2Proof.Machine

/-! ### Reset, the command write and the operand registers -/

/-- R38, the SRST column: the state the command answers. -/
theorem exec_srst (s : State) :
    exec .srst s = .next { s with sc := 0, rc := 0, hv := false, dv := false, err := false, ecode := .none } := rfl

/-- Settles O1: each clause reads a field off `resetWith`, or off the state SRST answers. -/
theorem resetValues : Obligations.ResetValues := by
  unfold Obligations.ResetValues
  refine ⟨fun draw => ?_, ⟨Config.resetDraw 0, rfl⟩, fun s => ?_⟩
  · simp [State.resetWith]
  · refine ⟨_, exec_srst s, ?_⟩
    simp

/-- Settles O15: the write reaches `execute` (R53), which a decoded word makes `exec` (R85). -/
theorem stepRunsDecodedCommand : Obligations.StepRunsDecodedCommand := by
  unfold Obligations.StepRunsDecodedCommand
  intro s v rest i hbus hdecode
  have hstep : step s = execute v { s with bus := rest, rdata := none } := by
    simp only [step, hbus]
    rfl
  rw [hstep, execute_ok hdecode]

/-- Where X, Y and Z alone differ, only their own offsets read differently (R52). -/
theorem memRead_with_operands (s : State) (x y z : Word) (off : Nat) (hx : off = 0x010 → x = s.x) (hy : off = 0x014 → y = s.y)
    (hz : off = 0x018 → z = s.z) : memRead off { s with x := x, y := y, z := z } = memRead off s :=
  memRead_congr (s := s) (t := { s with x := x, y := y, z := z }) rfl rfl rfl rfl off (fun _ => rfl) hx hy hz (fun _ => rfl)

/-- Settles O7: the write of each operand changes one register, which is read at its own offset only. -/
theorem operandRegistersReadBack : Obligations.OperandRegistersReadBack := by
  unfold Obligations.OperandRegistersReadBack
  intro s v off hoff
  rcases hoff with rfl | rfl | rfl
  · exact ⟨{ s with x := v }, rfl, rfl, fun other hne =>
      memRead_with_operands s v s.y s.z other (fun e => absurd e hne) (fun _ => rfl) (fun _ => rfl)⟩
  · exact ⟨{ s with y := v }, rfl, rfl, fun other hne =>
      memRead_with_operands s s.x v s.z other (fun _ => rfl) (fun e => absurd e hne) (fun _ => rfl)⟩
  · exact ⟨{ s with z := v }, rfl, rfl, fun other hne =>
      memRead_with_operands s s.x s.y v other (fun _ => rfl) (fun _ => rfl) (fun e => absurd e hne)⟩

/-! ### STATUS (R34) -/

theorem memRead_status (s : State) : memRead 0x004 s = statusWord s := rfl

theorem memWrite_status (v : Word) (s : State) : memWrite 0x004 v s = .next (writeStatus v s) := rfl

/-- HV, DV and ERR are bits 0, 1 and 2. -/
theorem statusWord_flags (s : State) :
    (statusWord s).getLsbD 0 = s.hv ∧ (statusWord s).getLsbD 1 = s.dv ∧ (statusWord s).getLsbD 2 = s.err := by
  refine ⟨?_, ?_, ?_⟩ <;> rw [statusWord_getLsbD s (by decide)] <;> simp

/-- Bits 3, 15 and 31:23 are reserved. -/
theorem statusWord_reserved (s : State) {i : Nat} (hi : i = 3 ∨ i = 15 ∨ (23 ≤ i ∧ i < 32)) :
    (statusWord s).getLsbD i = false := by
  rw [statusWord_getLsbD s (by omega)]
  rcases hi with rfl | rfl | ⟨hlo, -⟩
  · simp
  · simp [count_testBit s.sc]
  · simp [count_testBit s.rc (i := i - 16) (by omega), count_testBit s.sc (i := i - 8) (by omega),
      ecodeBits_high s.ecode (i := i - 4) (by omega), show i ≠ 2 ∧ i ≠ 1 ∧ i ≠ 0 by omega]

theorem statusWord_ecode (s : State) : (statusWord s).extractLsb' 4 4 = ecodeBits s.ecode := by
  apply BitVec.eq_of_getLsbD_eq
  intro i hi
  rw [BitVec.getLsbD_extractLsb', statusWord_getLsbD s (by omega)]
  simp [hi, show ¬ 16 ≤ 4 + i ∧ ¬ 8 ≤ 4 + i ∧ 4 + i ≠ 2 ∧ 4 + i ≠ 1 by omega]

theorem statusWord_sc (s : State) : ((statusWord s).extractLsb' 8 7).toNat = s.sc.val := by
  apply count_toNat
  intro i hi
  rw [BitVec.getLsbD_extractLsb', statusWord_getLsbD s (by omega), ecodeBits_high s.ecode (by omega)]
  simp [hi, show ¬ 16 ≤ 8 + i ∧ 8 + i ≠ 2 ∧ 8 + i ≠ 1 by omega]

theorem statusWord_rc (s : State) : ((statusWord s).extractLsb' 16 7).toNat = s.rc.val := by
  apply count_toNat
  intro i hi
  rw [BitVec.getLsbD_extractLsb', statusWord_getLsbD s (by omega), ecodeBits_high s.ecode (by omega),
    count_testBit s.sc (by omega)]
  simp [hi, show 16 + i ≠ 2 ∧ 16 + i ≠ 1 by omega]

theorem statusWord_high (s : State) : (statusWord s).extractLsb' 23 9 = 0#9 := by
  apply BitVec.eq_of_getLsbD_eq
  intro i hi
  rw [BitVec.getLsbD_extractLsb', statusWord_reserved s (by omega)]
  simp

/-- Settles O3, field by field from the bits of `statusWord`. -/
theorem statusRegisterFields : Obligations.StatusRegisterFields := by
  unfold Obligations.StatusRegisterFields
  intro s
  refine ⟨?_, fun v => ⟨fun hset => ?_, fun hclear => ?_, fun draw => ?_⟩⟩
  · obtain ⟨hhv, hdv, herr⟩ := statusWord_flags s
    rw [memRead_status]
    exact ⟨hhv, hdv, herr, statusWord_reserved s (by omega), statusWord_ecode s, statusWord_sc s,
      statusWord_reserved s (by omega), statusWord_rc s, statusWord_high s⟩
  · rw [memWrite_status, writeStatus, if_pos hset]
    rfl
  · rw [memWrite_status, writeStatus, hclear]
    rfl
  · simp [memRead_status, statusWord, State.resetWith, flagWord, ecodeBits]

/-! ### What a step can do to a block in work: W, SC, WV, RC and H (R26, R28) -/

/-- The three things a step can do to the block in work. -/
inductive BlockCase (s t : State) : Prop
  /-- The block ends: a hardware reset, SRST, INIT or an accumulation. -/
  | cleared (hsc : t.sc.val = 0) (hrc : t.rc.val = 0)
  /-- Only the schedule grows, or nothing changes. -/
  | scheduled (hh : t.h = s.h) (hwv : t.wv = s.wv) (hrc : t.rc = s.rc) (rises : s.sc.val ≤ t.sc.val)
      (keeps : ∀ j < s.sc.val, t.schedule j = s.schedule j) (ok : s.ScheduleOk → t.ScheduleOk)
  /-- Only rounds are done. -/
  | compressed (hw : t.w = s.w) (hsc : t.sc = s.sc) (rises : s.rc.val ≤ t.rc.val) (ok : s.RoundsOk → t.RoundsOk)

namespace BlockCase

variable {s t : State}

theorem unchanged (hw : t.w = s.w) (hsc : t.sc = s.sc) (hh : t.h = s.h) (hwv : t.wv = s.wv) (hrc : t.rc = s.rc) :
    BlockCase s t :=
  .scheduled hh hwv hrc (Nat.le_of_eq (congrArg Fin.val hsc.symm)) (fun j _ => State.schedule_congr hw j) (scheduleOk_congr hw hsc)

theorem of_schedule_frame (ht : t = { s with w := t.w, sc := t.sc }) (rises : s.sc.val ≤ t.sc.val)
    (keeps : ∀ j < s.sc.val, t.schedule j = s.schedule j) (ok : s.ScheduleOk → t.ScheduleOk) : BlockCase s t :=
  .scheduled (by rw [ht]) (by rw [ht]) (by rw [ht]) rises keeps ok

theorem of_rounds_frame (ht : t = { s with wv := t.wv, rc := t.rc }) (rises : s.rc.val ≤ t.rc.val)
    (ok : s.RoundsOk → t.RoundsOk) : BlockCase s t :=
  .compressed (by rw [ht]) (by rw [ht]) rises ok

/-- What is on the bus is no part of the block in work. -/
theorem of_onBus {b : List HostEvent} {d : Option Word} (h : BlockCase (s.onBus b d) t) : BlockCase s t := by
  cases h with
  | cleared hsc hrc => exact .cleared hsc hrc
  | scheduled hh hwv hrc rises keeps ok => exact .scheduled hh hwv hrc rises keeps ok
  | compressed hw hsc rises ok => exact .compressed hw hsc rises ok

end BlockCase

theorem blockCase_expandStep {s : State} (h : 16 ≤ s.sc.val) (h' : s.sc.val < 64) : BlockCase s (expandStep s) := by
  refine .of_schedule_frame (expandStep_frame s) ?_ ?_ (fun hs => scheduleOk_expandStep hs h h')
  · rw [expandStep_sc s h h']
    omega
  · intro j hj
    rw [expandStep_schedule s h h', if_neg (by omega)]

theorem blockCase_expandRest {s : State} (h : 16 ≤ s.sc.val) : BlockCase s (expandRest s) := by
  refine .of_schedule_frame (expandRest_frame s h) ?_ (expandRest_keeps s h) (fun hs => scheduleOk_expandRest hs h)
  rw [expandRest_sc s h]
  omega

theorem blockCase_roundStep {s : State} (h : s.rc.val < 64) : BlockCase s (roundStep s) := by
  refine .of_rounds_frame (roundStep_frame s) ?_ (fun hs => roundsOk_roundStep hs h)
  rw [roundStep_rc s h]
  omega

theorem blockCase_roundsRest (s : State) : BlockCase s (roundsRest s) := by
  refine .of_rounds_frame (roundsRest_frame s) ?_ roundsOk_roundsRest
  rw [roundsRest_rc s]
  omega

/-- `msgIn_push`, read from the state a push that fits answers. -/
theorem push_next {v : Word} {s t : State} (hsc : s.sc.val < 16) (h : msgIn v s = .next t) :
    t = { s with w := t.w, sc := t.sc } ∧ t.sc.val = s.sc.val + 1 ∧
      ∀ i, t.schedule i = if i = s.sc.val then v else s.schedule i := by
  obtain ⟨u, hu, hpush⟩ := msgIn_push v s hsc
  obtain rfl : u = t := by simpa [hu] using h
  exact hpush

/-- A push appends one of the words below W[16], of which the recurrence says nothing. -/
theorem blockCase_push {v : Word} {s t : State} (hsc : s.sc.val < 16) (h : msgIn v s = .next t) : BlockCase s t := by
  obtain ⟨hframe, hcount, hwords⟩ := push_next hsc h
  refine .of_schedule_frame hframe (by omega) ?_ (fun _ => scheduleOk_of_short (by omega))
  intro j hj
  rw [hwords, if_neg (by omega)]

/-- The ALU writes R only (41_word_alu.md), which no block is worked in. -/
theorem blockCase_setResult (v : Word) (s : State) : BlockCase s (setResult v s) :=
  .unchanged (setResult_w v s) (setResult_sc v s) (setResult_h v s) (setResult_wv v s) (setResult_rc v s)

theorem blockCase_effectOf {i : Instr} {s : State} (h : errorOf i s = none) : BlockCase s (effectOf i s) := by
  cases i with
  | srst | init => exact .cleared rfl rfl
  | accum | block => exact .cleared (congrArg Fin.val (accumulateStep_sc _)) (congrArg Fin.val (accumulateStep_rc _))
  | exp1 => exact blockCase_expandStep (exp1_enabled h).1 (exp1_enabled h).2
  | expall => exact blockCase_expandRest (expall_enabled h)
  | rnd1 => exact blockCase_roundStep (rnd1_enabled h).2.1
  | rndall => exact blockCase_roundsRest s
  | nop => exact .unchanged rfl rfl rfl rfl rfl
  | encode => exact .unchanged (t := { s with dg := digestWords s.h, dv := true }) rfl rfl rfl rfl rfl
  | rotr | shr | ch | maj | bsig0 | bsig1 | ssig0 | ssig1 | add => exact blockCase_setResult _ s

theorem blockCase_exec {i : Instr} {s t : State} (h : exec i s = .next t) : BlockCase s t := by
  rcases exec_cases h with ⟨c, -, rfl⟩ | ⟨henabled, rfl⟩
  · exact .unchanged rfl rfl rfl rfl rfl
  · exact blockCase_effectOf henabled

theorem blockCase_step {s t : State} (h : step s = .next t) : BlockCase s t := by
  cases step_cases h with
  | command i b h => exact (blockCase_exec h).of_onBus
  | push v b hsc h => exact (blockCase_push (s := s.onBus b none) hsc h).of_onBus
  | reset b h => subst h; exact .cleared rfl rfl
  | idle h | unchanged b d h | error c b hc h | clear b h | operand x y z b h =>
    subst h; exact .unchanged rfl rfl rfl rfl rfl

/-- Settles O43: a block that ends leaves nothing to keep; growth of the schedule keeps the words the rounds have read, since
RC ≤ SC (R36); and rounds leave the schedule as it is. -/
theorem countersMeanWhatTheySay : Obligations.CountersMeanWhatTheySay := by
  unfold Obligations.CountersMeanWhatTheySay
  intro s t hinv hsched hrounds hstep
  cases blockCase_step hstep with
  | cleared hsc hrc => exact ⟨scheduleOk_of_short (by omega), roundsOk_of_zero hrc⟩
  | scheduled hh hwv hrc rises keeps ok =>
    have hread : ∀ i < s.rc.val, t.schedule i = s.schedule i :=
      fun i hi => keeps i (Nat.lt_of_lt_of_le hi hinv.rc_le_sc)
    exact ⟨ok hsched, roundsOk_congr hwv hrc hh hread hrounds⟩
  | compressed hw hsc rises ok => exact ⟨scheduleOk_congr hw hsc hsched, ok hrounds⟩

/-- Settles O47, from the three things a step can do to the block in work. -/
theorem countersOnlyRiseOrClear : Obligations.CountersOnlyRiseOrClear := by
  unfold Obligations.CountersOnlyRiseOrClear
  intro s t hstep
  cases blockCase_step hstep with
  | cleared hsc hrc => exact ⟨.inl hsc, .inl hrc⟩
  | scheduled hh hwv hrc rises keeps ok => exact ⟨.inr ⟨rises, keeps⟩, .inr (Nat.le_of_eq (congrArg Fin.val hrc.symm))⟩
  | compressed hw hsc rises ok =>
    exact ⟨.inr ⟨Nat.le_of_eq (congrArg Fin.val hsc.symm), fun j _ => State.schedule_congr hw j⟩, .inr rises⟩

/-! ### What a step can do to the digest buffer (R31, R32) -/

/-- The three things a step can do to DG and DV. -/
inductive DigestCase (s t : State) : Prop
  | unchanged (hdg : t.dg = s.dg) (hdv : t.dv = s.dv)
  /-- A hardware reset or SRST. -/
  | invalidated (hdv : t.dv = false)
  /-- ENCODE (R161). -/
  | encoded (hdg : t.dg = digestWords s.h)

namespace DigestCase

variable {s t : State}

theorem of_schedule_frame (ht : t = { s with w := t.w, sc := t.sc }) : DigestCase s t :=
  .unchanged (by rw [ht]) (by rw [ht])

theorem of_rounds_frame (ht : t = { s with wv := t.wv, rc := t.rc }) : DigestCase s t :=
  .unchanged (by rw [ht]) (by rw [ht])

/-- What is on the bus is no part of the digest. -/
theorem of_onBus {b : List HostEvent} {d : Option Word} (h : DigestCase (s.onBus b d) t) : DigestCase s t := by
  cases h with
  | unchanged hdg hdv => exact .unchanged hdg hdv
  | invalidated hdv => exact .invalidated hdv
  | encoded hdg => exact .encoded hdg

end DigestCase

/-- BLOCK's three loops leave DG and DV alone. -/
theorem digestCase_block {s : State} (h : 16 ≤ s.sc.val) : DigestCase s (accumulateStep (roundsRest (expandRest s))) := by
  refine .unchanged ?_ ?_
  · rw [accumulateStep_dg, roundsRest_frame, expandRest_frame s h]
  · rw [accumulateStep_dv, roundsRest_frame, expandRest_frame s h]

theorem digestCase_effectOf {i : Instr} {s : State} (h : errorOf i s = none) : DigestCase s (effectOf i s) := by
  cases i with
  | srst => exact .invalidated rfl
  | encode => exact .encoded rfl
  | exp1 => exact .of_schedule_frame (expandStep_frame s)
  | expall => exact .of_schedule_frame (expandRest_frame s (expall_enabled h))
  | rnd1 => exact .of_rounds_frame (roundStep_frame s)
  | rndall => exact .of_rounds_frame (roundsRest_frame s)
  | block => exact digestCase_block (block_enabled h).2
  | _ => exact .unchanged rfl rfl

theorem digestCase_exec {i : Instr} {s t : State} (h : exec i s = .next t) : DigestCase s t := by
  rcases exec_cases h with ⟨c, -, rfl⟩ | ⟨henabled, rfl⟩
  · exact .unchanged rfl rfl
  · exact digestCase_effectOf henabled

theorem digestCase_push {v : Word} {s t : State} (hsc : s.sc.val < 16) (h : msgIn v s = .next t) : DigestCase s t :=
  .of_schedule_frame (push_next hsc h).1

theorem digestCase_step {s t : State} (h : step s = .next t) : DigestCase s t := by
  cases step_cases h with
  | command i b h => exact (digestCase_exec h).of_onBus
  | push v b hsc h => exact (digestCase_push (s := s.onBus b none) hsc h).of_onBus
  | reset b h => subst h; exact .invalidated rfl
  | idle h | unchanged b d h | error c b hc h | clear b h | operand x y z b h => subst h; exact .unchanged rfl rfl

/-- A buffer ENCODE wrote holds hexadecimal characters only (R160). -/
theorem digestOk_of_encoded {t : State} {h : Vector Word 8} (hdg : t.dg = digestWords h) : t.DigestOk := by
  intro _ j
  have hchar : t.digestCharacter j = digestChar h j := by
    simp only [State.digestCharacter, hdg]
    exact digestWords_char h j
  rw [hchar]
  exact hexChar_isHex _

/-- Settles O44: a step leaves DG and DV, or ends DV, or writes DG with characters of the encoder. -/
theorem digestStaysHexadecimal : Obligations.DigestStaysHexadecimal := by
  unfold Obligations.DigestStaysHexadecimal
  intro s t hs hstep
  cases digestCase_step hstep with
  | unchanged hdg hdv =>
    intro hvalid j
    have hchar : t.digestCharacter j = s.digestCharacter j := by simp only [State.digestCharacter, hdg]
    rw [hchar]
    exact hs (hdv ▸ hvalid) j
  | invalidated hdv =>
    intro hvalid
    rw [hdv] at hvalid
    cases hvalid
  | encoded hdg => exact digestOk_of_encoded hdg

end Sys2Proof.Machine

/-! # Proofs of the family 20_memory.md: the register window and the bus -/

namespace Sys2Proof.Machine

/-! ### Reads and writes of an offset (R52, R53) -/

/-- R52's last clause: the offsets of the window that no register has. -/
theorem memRead_unmapped (s : State) {off : Nat}
    (h : off = 0x008 ∨ off = 0x00C ∨ (0x024 ≤ off ∧ off ≤ 0x03C) ∨ (0x0C0 ≤ off ∧ off ≤ 0x0FC)) : memRead off s = 0 := by
  unfold memRead
  rw [if_neg (by omega), if_neg (by omega), if_neg (by omega), if_neg (by omega), if_neg (by omega), dif_neg (by omega),
    dif_neg (by omega), dif_neg (by omega), dif_neg (by omega)]
  rfl

/-- No offset reads the model's own fields `bus` and `rdata`. -/
theorem memRead_onBus (off : Nat) (s : State) (b : List HostEvent) (d : Option Word) :
    memRead off (s.onBus b d) = memRead off s :=
  memRead_congr (s := s) (t := s.onBus b d) rfl rfl rfl rfl off (fun _ => rfl) (fun _ => rfl) (fun _ => rfl) (fun _ => rfl)
    fun _ => rfl

/-- STATUS is the only offset where a recorded error is seen (R182). -/
theorem memRead_recordError (c : ECode) (s : State) {off : Nat} (h : off ≠ 0x004) :
    memRead off (recordError c s) = memRead off s :=
  memRead_congr (s := s) (t := recordError c s) rfl rfl rfl rfl off (fun e => absurd e h) (fun _ => rfl) (fun _ => rfl) (fun _ => rfl)
    fun _ => rfl

theorem memWrite_of_ne_zero {off : Nat} (h : off ≠ 0x000) (v : Word) (s : State) : memWrite off v s = registerWrite off v s := by
  unfold memWrite
  split
  · exact absurd rfl h
  · rfl

/-- R53's else clause: an offset that is none of CMD, STATUS, X, Y, Z and MSG_IN. -/
theorem memWrite_refused {off : Nat} (hcmd : off ≠ 0x000) (hstatus : off ≠ 0x004) (hx : off ≠ 0x010) (hy : off ≠ 0x014)
    (hz : off ≠ 0x018) (hpush : off ≠ 0x020) (v : Word) (s : State) : memWrite off v s = .next (recordError .busWrite s) := by
  rw [memWrite_of_ne_zero hcmd, registerWrite, if_neg hstatus, if_neg hx, if_neg hy, if_neg hz, if_neg hpush, raiseError]

/-- Settles O4: CMD, MSG_IN, X, Y, Z and R by evaluation; STATUS, the four arrays and the unmapped offsets by the lemma of each. -/
theorem windowReadMap : Obligations.WindowReadMap := by
  unfold Obligations.WindowReadMap
  intro s
  exact ⟨rfl, rfl, memRead_status s, rfl, rfl, rfl, rfl, memRead_h s, memRead_wv s, memRead_dg s, memRead_w s,
    fun _ => memRead_unmapped s⟩

/-- Settles O5: the named offsets by evaluation, STATUS by bit 2 of the value, every other offset by `memWrite_refused`. -/
theorem windowWriteMap : Obligations.WindowWriteMap := by
  unfold Obligations.WindowWriteMap
  intro s v
  refine ⟨rfl, rfl, rfl, rfl, rfl, fun hset => ?_, fun hclear => ?_, fun off hcmd hstatus hx hy hz hpush => ?_⟩
  · rw [memWrite_status, writeStatus, if_pos hset, clearError]
  · rw [memWrite_status, writeStatus, if_neg (ne_true_of_eq_false hclear)]
  · exact memWrite_refused hcmd hstatus hx hy hz hpush v s

/-- Settles O8: such a write is `recordError .busWrite`, which only STATUS shows. -/
theorem readOnlyRegistersKeepTheirValues : Obligations.ReadOnlyRegistersKeepTheirValues := by
  unfold Obligations.ReadOnlyRegistersKeepTheirValues
  intro s v off hoff
  have hwrite : memWrite off v s = .next (recordError .busWrite s) :=
    memWrite_refused (by omega) (by omega) (by omega) (by omega) (by omega) (by omega) v s
  refine ⟨_, hwrite, recordError_err _ s, fun hclear => ?_, fun _ => memRead_recordError .busWrite s⟩
  rw [recordError_ecode, hclear]
  rfl

/-! ### The offset an access reaches (R50, R54) -/

theorem accessOffset_aligned {off : BitVec 9} (h : off.toNat % 4 = 0) : accessOffset (.window off) 4 = .ok off.toNat := by
  simp [accessOffset, h]

theorem accessOffset_width (off : BitVec 9) {bytes : Nat} (h : bytes ≠ 4) :
    accessOffset (.window off) bytes = .error (.accessWidth bytes) := by
  simp [accessOffset, h]

theorem accessOffset_misaligned {off : BitVec 9} (h : off.toNat % 4 ≠ 0) :
    accessOffset (.window off) 4 = .error (.misalignedOffset off) := by
  simp [accessOffset, h]

theorem accessOffset_outside (a bytes : Nat) : accessOffset (.outside a) bytes = .error (.outsideWindow a) := rfl

/-! ### The step of a bus access (R59) -/

theorem step_of_bus {s : State} {e : HostEvent} {rest : List HostEvent} (h : s.bus = e :: rest) :
    step s = perform e { s with bus := rest } := by
  simp only [step, h]

theorem perform_read {addr : BusAddr} {bytes off : Nat} (h : accessOffset addr bytes = .ok off) (s : State) :
    perform (.read addr bytes) s = .next { s with rdata := some (memRead off s) } := by
  simp only [perform, h]

theorem perform_write {addr : BusAddr} {bytes off : Nat} (h : accessOffset addr bytes = .ok off) (v : Word) (s : State) :
    perform (.write addr bytes v) s = memWrite off v { s with rdata := none } := by
  simp only [perform, h]

/-- A read or a write that reaches no offset has no step. -/
theorem step_refused {s : State} {e : HostEvent} {rest : List HostEvent} {addr : BusAddr} {bytes : Nat} {v : Word} {r : Refusal}
    (haddr : accessOffset addr bytes = .error r) (he : e = .read addr bytes ∨ e = .write addr bytes v) (hbus : s.bus = e :: rest) :
    step s = .refused r := by
  rw [step_of_bus hbus]
  rcases he with rfl | rfl <;> simp only [perform, haddr]

/-- Settles O6: an aligned access reaches its offset, and the value read does not depend on the event taken off. -/
theorem busAccessesStep : Obligations.BusAccessesStep := by
  unfold Obligations.BusAccessesStep
  intro s off v rest haligned
  have hoff := accessOffset_aligned haligned
  refine ⟨fun hread => ?_, fun hwrite => ?_⟩
  · have hvalue : memRead off.toNat { s with bus := rest } = memRead off.toNat s := memRead_onBus _ s rest s.rdata
    rw [step_of_bus hread, rd, perform_read hoff, hvalue]
  · rw [step_of_bus hwrite, wr, perform_write hoff]

/-- Settles O9: the width is refused before the alignment is looked at. -/
theorem accessesOutsideTheInterfaceRefused : Obligations.AccessesOutsideTheInterfaceRefused := by
  unfold Obligations.AccessesOutsideTheInterfaceRefused
  intro s off bytes v rest e he hbus
  refine ⟨fun hwidth => step_refused (accessOffset_width off hwidth) he hbus, fun hfour hmis => ?_⟩
  subst hfour
  exact step_refused (accessOffset_misaligned hmis) he hbus

/-! ### Where the window lies (R50) -/

theorem addrAt_outside {base addr : Nat} (h : addr < base ∨ base + 0x200 ≤ addr) : addrAt base addr = .outside addr := by
  rw [addrAt, Config.windowBytes, if_neg (by omega)]

theorem addrAt_inside (base : Nat) (off : BitVec 9) : addrAt base (base + off.toNat) = .window off := by
  have hlt := off.isLt
  rw [addrAt, Config.windowBytes, if_pos (by omega), Nat.add_sub_cancel_left, BitVec.ofNat_toNat, BitVec.setWidth_eq]

/-- Every byte address is an offset from BASE or lies outside the window. -/
theorem offset_or_outside (base addr : Nat) :
    (∃ off : BitVec 9, addr = base + off.toNat) ∨ addr < base ∨ base + 0x200 ≤ addr := by
  by_cases h : base ≤ addr ∧ addr < base + 0x200
  · refine .inl ⟨BitVec.ofNat 9 (addr - base), ?_⟩
    rw [BitVec.toNat_ofNat, Nat.mod_eq_of_lt (by omega)]
    omega
  · exact .inr (by omega)

theorem addrAt_eq_window_iff (base addr : Nat) (off : BitVec 9) : addrAt base addr = .window off ↔ addr = base + off.toNat := by
  constructor
  · intro h
    rcases offset_or_outside base addr with ⟨off', rfl⟩ | hout
    · rw [addrAt_inside] at h
      cases h
      rfl
    · rw [addrAt_outside hout] at h
      cases h
  · rintro rfl
    exact addrAt_inside base off

/-- Settles O10: an address is an offset from BASE or outside, and outside it reaches no offset. -/
theorem windowLiesAtBase : Obligations.WindowLiesAtBase := by
  unfold Obligations.WindowLiesAtBase
  intro base addr
  refine ⟨addrAt_eq_window_iff base addr, fun hout => ⟨addrAt_outside hout, fun s bytes v rest e he hbus => ?_⟩⟩
  rw [addrAt_outside hout] at he
  exact step_refused (accessOffset_outside addr bytes) he hbus

end Sys2Proof.Machine

/-! # Proofs of the family 30_encoding.md: the command word and what executing it depends on -/

namespace Sys2Proof

/-! ### The assigned opcodes and the immediates they allow (R81, R83) -/

/-- The OPC column of R83. -/
def assignedOpcodes : List (BitVec 8) :=
  [0x00, 0x01, 0x02, 0x10, 0x11, 0x12, 0x13, 0x14, 0x15, 0x16, 0x17, 0x18, 0x20, 0x21, 0x30, 0x31, 0x32, 0x33, 0x40]

theorem opcodeOf_mem_assigned (i : Instr) : opcodeOf i ∈ assignedOpcodes := by
  cases i <;> simp [opcodeOf, assignedOpcodes]

theorem commandOf_eq_none {opc : BitVec 8} (h : opc ∉ assignedOpcodes) (imm : BitVec 8) : commandOf opc imm = none := by
  cases hc : commandOf opc imm with
  | none => rfl
  | some i =>
    obtain ⟨hopc, -⟩ := commandOf_opcode hc
    exact absurd (hopc ▸ opcodeOf_mem_assigned i) h

theorem exists_commandOf {opc : BitVec 8} (h : opc ∈ assignedOpcodes) (imm : BitVec 8) : ∃ i, commandOf opc imm = some i := by
  have hall : ∀ o ∈ assignedOpcodes, (commandOf o imm).isSome = true := by simp [assignedOpcodes, commandOf]
  exact Option.isSome_iff_exists.mp (hall opc h)

/-- R81 and R84, the check on IMM as the spec splits it: ROTR and SHR want bits 7:5 to be 0, every other command the whole byte. -/
theorem wf_iff (i : Instr) :
    i.wf = true ↔
      ((opcodeOf i = 0x10 ∨ opcodeOf i = 0x11) → (immediateOf i).extractLsb' 5 3 = 0) ∧
      (¬ (opcodeOf i = 0x10 ∨ opcodeOf i = 0x11) → immediateOf i = 0) := by
  have htakes : takesAmount (opcodeOf i) = true ↔ opcodeOf i = 0x10 ∨ opcodeOf i = 0x11 := by simp [takesAmount]
  rw [wf_eq, ← htakes]
  cases takesAmount (opcodeOf i) <;> simp

/-- What a word that decodes has passed: the checks of R84. -/
theorem checks_of_decode_ok {v : Word} {i : Instr} (h : decode v = .ok i) :
    rsvField v = 0 ∧
    ((opcField v = 0x10 ∨ opcField v = 0x11) → (immField v).extractLsb' 5 3 = 0) ∧
    (¬ (opcField v = 0x10 ∨ opcField v = 0x11) → immField v = 0) := by
  obtain ⟨hopc, hrsv, himm, hwf⟩ := (decode_ok_iff v i).mp h
  rw [hopc, himm]
  exact ⟨hrsv, (wf_iff i).mp hwf⟩

/-- A word with an assigned OPC that passes the checks of R84 decodes to the command of its OPC and IMM. -/
theorem decode_ok_of_checks {v : Word} (hassigned : opcField v ∈ assignedOpcodes) (hrsv : rsvField v = 0)
    (hamount : (opcField v = 0x10 ∨ opcField v = 0x11) → (immField v).extractLsb' 5 3 = 0)
    (hzero : ¬ (opcField v = 0x10 ∨ opcField v = 0x11) → immField v = 0) :
    ∃ i, opcodeOf i = opcField v ∧ immediateOf i = immField v ∧ decode v = .ok i := by
  obtain ⟨i, hi⟩ := exists_commandOf hassigned (immField v)
  obtain ⟨hopc, himm⟩ := commandOf_opcode hi
  have himm : immediateOf i = immField v := by
    by_cases htakes : takesAmount (opcField v) = true
    · rw [himm, if_pos htakes]
    · rw [himm, if_neg htakes, hzero (by simpa [takesAmount] using htakes)]
  have hwf : i.wf = true := by
    rw [wf_iff, hopc, himm]
    exact ⟨hamount, hzero⟩
  exact ⟨i, hopc, himm, (decode_ok_iff v i).mpr ⟨hopc.symm, hrsv, himm.symm, hwf⟩⟩

/-- With an assigned OPC the only decode error is a bad field (R84). -/
theorem decode_bad_of_assigned {v : Word} (hassigned : opcField v ∈ assignedOpcodes) (hnot : ∀ i, decode v ≠ .ok i) :
    decode v = .error .badField := by
  obtain ⟨i, hi⟩ := exists_commandOf hassigned (immField v)
  refine decode_bad v hi ?_
  by_cases hword : encode i = v
  · exact .inr (Bool.eq_false_iff.mpr fun hwf => hnot i (hword ▸ decode_encode i hwf))
  · exact .inl hword

end Sys2Proof

namespace Sys2Proof.Machine

/-! ### Execute (R84, R85) -/

/-- Settles O14: an unassigned OPC names no command; a word that fails a check of R84 does not decode, which with an assigned OPC is
a bad field; and a word that passes them all decodes to the command it executes. -/
theorem executeChecksInOrder : Obligations.ExecuteChecksInOrder := by
  unfold Obligations.ExecuteChecksInOrder
  intro v s opc rsv imm assigned amountOpc
  have bad (hassigned : assigned) (hnot : ∀ i, decode v ≠ .ok i) : execute v s = .next (recordError .badField s) :=
    execute_bad (decode_bad_of_assigned hassigned hnot) s
  refine ⟨?unassigned, ?rsv, ?amount, ?zero, ?runs, rfl, rfl⟩
  case unassigned =>
    intro hun
    exact execute_illegal (decode_illegal v (commandOf_eq_none hun _)) s
  case rsv =>
    intro hassigned hrsv
    refine bad hassigned fun i hok => ?_
    obtain ⟨hrsv0, -, -⟩ := checks_of_decode_ok hok
    exact hrsv hrsv0
  case amount =>
    intro hassigned hamount himm
    refine bad hassigned fun i hok => ?_
    obtain ⟨-, hallowed, -⟩ := checks_of_decode_ok hok
    exact himm (hallowed hamount)
  case zero =>
    intro hassigned hother himm
    refine bad hassigned fun i hok => ?_
    obtain ⟨-, -, hallowed⟩ := checks_of_decode_ok hok
    exact himm (hallowed hother)
  case runs =>
    intro hassigned hrsv hamount hzero
    obtain ⟨i, hopc, himm, hok⟩ := decode_ok_of_checks hassigned hrsv hamount hzero
    exact ⟨i, hopc, himm, execute_ok hok s⟩

/-! ### A command does not read ERR or ECODE (R85, R183) -/

/-- A state with another error report. -/
def State.withError (s : State) (e : Bool) (c : ECode) : State := { s with err := e, ecode := c }

section

variable (s : State) (e : Bool) (c : ECode)

theorem expandStep_withError : expandStep (s.withError e c) = (expandStep s).withError e c := by
  rw [expandStep, expandStep, apply_dite (State.withError · e c)]
  rfl

theorem roundStep_withError : roundStep (s.withError e c) = (roundStep s).withError e c := by
  rw [roundStep, roundStep, apply_dite (State.withError · e c)]
  rfl

/-- A loop neither reads nor writes the error report if its step does not. -/
theorem repeatStep_withError {f : State → State} (hf : ∀ s : State, f (s.withError e c) = (f s).withError e c) (n : Nat) :
    repeatStep f n (s.withError e c) = (repeatStep f n s).withError e c := by
  induction n generalizing s with
  | zero => rfl
  | succ n ih => rw [repeatStep, repeatStep, hf, ih]

theorem expandRest_withError : expandRest (s.withError e c) = (expandRest s).withError e c :=
  repeatStep_withError s e c (fun s => expandStep_withError s e c) _

theorem roundsRest_withError : roundsRest (s.withError e c) = (roundsRest s).withError e c :=
  repeatStep_withError s e c (fun s => roundStep_withError s e c) _

/-- No check of a command reads the error report. -/
theorem errorOf_withError (i : Instr) : errorOf i (s.withError e c) = errorOf i s := by
  cases i <;> rfl

/-- No effect reads the error report: SRST ends it whatever it was (R101), and every other effect leaves it as it is. -/
theorem effectOf_withError (i : Instr) : ∃ e' c', effectOf i (s.withError e c) = (effectOf i s).withError e' c' := by
  cases i with
  | srst => exact ⟨false, .none, rfl⟩
  | exp1 => exact ⟨e, c, expandStep_withError s e c⟩
  | expall => exact ⟨e, c, expandRest_withError s e c⟩
  | rnd1 => exact ⟨e, c, roundStep_withError s e c⟩
  | rndall => exact ⟨e, c, roundsRest_withError s e c⟩
  | block =>
    refine ⟨e, c, ?_⟩
    simp only [effectOf, expandRest_withError, roundsRest_withError]
    rfl
  | _ => exact ⟨e, c, rfl⟩

/-- With another error report a command answers the same next state, but for its error report. -/
theorem exec_withError {i : Instr} {s t : State} (h : exec i s = .next t) :
    ∃ e' c', exec i (s.withError e c) = .next (t.withError e' c') := by
  rcases exec_cases h with ⟨code, herror, rfl⟩ | ⟨henabled, rfl⟩
  · exact ⟨true, if e then c else code, exec_error ((errorOf_withError s e c i).trans herror)⟩
  · obtain ⟨e', c', heffect⟩ := effectOf_withError s e c i
    exact ⟨e', c', by rw [exec_effect ((errorOf_withError s e c i).trans henabled), heffect]⟩

end

/-- Settles O21, from `exec_withError` at the state the command answers. -/
theorem errorFlagBlocksNothing : Obligations.ErrorFlagBlocksNothing := by
  unfold Obligations.ErrorFlagBlocksNothing
  intro i s e c
  obtain ⟨e', c', h⟩ := exec_withError e c (exec_eq i s)
  exact ⟨_, _, exec_eq i s, h, rfl⟩

end Sys2Proof.Machine

/-! # Proofs of the family 40_control.md: NOP, SRST and INIT -/

namespace Sys2Proof.Machine

theorem exec_nop (s : State) : exec .nop s = .next s := rfl

/-- R102, R150: the state INIT answers. -/
theorem exec_init (s : State) : exec .init s = .next { s with h := H_INITIAL, hv := true, sc := 0, rc := 0 } := rfl

/-- What the word format adds to the meaning of a command without an immediate: the write of its word answers the same (R85), and a word
of its OPC whose RSV or IMM is not 0 is refused (R84). -/
theorem runs_and_badFieldsRefused {i : Instr} {s t : State} (hamount : takesAmount (opcodeOf i) = false) (hwf : i.wf = true)
    (h : exec i s = .next t) : Runs i (encode i) s t ∧ BadFieldsRefused (opcodeOf i) s :=
  ⟨runs_of_exec (decode_encode i hwf) h, badFieldsRefused i hamount s⟩

/-- Settles O22, from `exec_nop`. -/
theorem nopDoesNothing : Obligations.NopDoesNothing := by
  unfold Obligations.NopDoesNothing
  intro s
  exact runs_and_badFieldsRefused (i := .nop) rfl rfl (exec_nop s)

/-- Settles O23, from `exec_srst`. -/
theorem softResetClearsControl : Obligations.SoftResetClearsControl := by
  unfold Obligations.SoftResetClearsControl
  intro s
  exact runs_and_badFieldsRefused (i := .srst) rfl rfl (exec_srst s)

/-- Settles O24, from `exec_init` at the state and again at the state it answers, where H, HV, SC and RC already hold what INIT loads. -/
theorem initStartsAMessage : Obligations.InitStartsAMessage := by
  unfold Obligations.InitStartsAMessage
  intro s
  obtain ⟨hruns, hrefused⟩ := runs_and_badFieldsRefused (i := .init) rfl rfl (exec_init s)
  exact ⟨_, hruns, rfl, rfl, exec_init _, hrefused⟩

end Sys2Proof.Machine

/-! # Proofs of the family 41_word_alu.md: the ALU commands and the word functions they expose -/

namespace Sys2Proof.Machine

/-! ### What each command answers (R111 to R119) -/

theorem exec_rotr (imm : BitVec 8) (s : State) : exec (.rotr imm) s = .next (setResult (rotr s.x (amount imm)) s) := rfl

theorem exec_shr (imm : BitVec 8) (s : State) : exec (.shr imm) s = .next (setResult (shr s.x (amount imm)) s) := rfl

theorem exec_ch (s : State) : exec .ch s = .next (setResult (ch s.x s.y s.z) s) := rfl

theorem exec_maj (s : State) : exec .maj s = .next (setResult (maj s.x s.y s.z) s) := rfl

theorem exec_bsig0 (s : State) : exec .bsig0 s = .next (setResult (bsig0 s.x) s) := rfl

theorem exec_bsig1 (s : State) : exec .bsig1 s = .next (setResult (bsig1 s.x) s) := rfl

theorem exec_ssig0 (s : State) : exec .ssig0 s = .next (setResult (ssig0 s.x) s) := rfl

theorem exec_ssig1 (s : State) : exec .ssig1 s = .next (setResult (ssig1 s.x) s) := rfl

theorem exec_add (s : State) : exec .add s = .next (setResult (s.x + s.y) s) := rfl

/-! ### ROTR and SHR (R111, R112) -/

/-- A command's word as 41_word_alu.md writes it (`0x10000000 | n`): OPC at bit 24, and IMM ORed in. -/
theorem opcode_or_immediate (i : Instr) : ((opcodeOf i).setWidth 32 <<< 24 ||| (immediateOf i).setWidth 32) = encode i := by
  apply BitVec.eq_of_getLsbD_eq
  intro j hj
  rw [getLsbD_encode, BitVec.getLsbD_or, BitVec.getLsbD_shiftLeft, BitVec.getLsbD_setWidth, BitVec.getLsbD_setWidth]
  by_cases h8 : j < 8
  · simp [h8, hj, show j < 24 by omega]
  · have himm : (immediateOf i).getLsbD j = false := BitVec.getLsbD_of_ge _ _ (by omega)
    by_cases h24 : j < 24
    · simp [h8, h24, himm]
    · simp [h8, h24, hj, himm, show j - 24 < 32 by omega]

/-- The write of that word runs the command, where the command is well-formed (R81). -/
theorem runs_or_immediate {i : Instr} {opc : Word} {s t : State} (hopc : (opcodeOf i).setWidth 32 <<< 24 = opc)
    (hwf : i.wf = true) (h : exec i s = .next t) : Runs i (opc ||| (immediateOf i).setWidth 32) s t := by
  rw [← hopc, opcode_or_immediate]
  exact runs_of_exec (decode_encode i hwf) h

/-- The decode errors of ROTR and SHR (R84): a word of their OPC with RSV or IMM[7:5] not 0 fails a check. -/
theorem execute_bad_amount {v : Word} (hopc : opcField v = 0x10 ∨ opcField v = 0x11)
    (hbad : rsvField v ≠ 0 ∨ (immField v).extractLsb' 5 3 ≠ 0) (s : State) : execute v s = .next (recordError .badField s) := by
  have hassigned : opcField v ∈ assignedOpcodes := by
    rcases hopc with h | h <;> rw [h] <;> decide
  refine execute_bad (decode_bad_of_assigned hassigned fun i hok => ?_) s
  obtain ⟨hrsv, himm, -⟩ := checks_of_decode_ok hok
  rcases hbad with h | h
  · exact h hrsv
  · exact h (himm hopc)

/-- Settles O25: of a word that decodes the amount is the whole immediate, and `rotr_bit` and `shr_bit` give the result bit by bit. -/
theorem rotateAndShiftByAmount : Obligations.RotateAndShiftByAmount := by
  unfold Obligations.RotateAndShiftByAmount
  refine ⟨fun s imm himm => ?_, fun s v hopc hbad => execute_bad_amount hopc hbad s⟩
  have hwf : (imm.extractLsb' 5 3 == 0#3) = true := beq_iff_eq.mpr himm
  have hamount : amount imm = imm.toNat := amount_eq himm
  refine ⟨⟨_, runs_or_immediate (by simp [opcodeOf]) hwf (exec_rotr imm s), rfl, fun i hi => ?_⟩,
    ⟨_, runs_or_immediate (by simp [opcodeOf]) hwf (exec_shr imm s), rfl, fun i _ => ?_⟩⟩
  · rw [setResult_r, rotr_bit s.x (amount_lt imm) hi, hamount]
  · rw [setResult_r, shr_bit, hamount]

/-! ### CH and MAJ (R113, R114) -/

/-- R110's choice of one bit. -/
theorem choice_of_bits : ∀ a b c : Bool, ((a && b) ^^ (!a && c)) = if a then b else c := by decide

/-- R110's majority of one bit. -/
theorem majority_of_bits :
    ∀ a b c : Bool, ((a && b) ^^ (a && c) ^^ (b && c)) = decide (2 ≤ a.toNat + b.toNat + c.toNat) := by decide

theorem ch_bit (x y z : Word) {i : Nat} (hi : i < 32) :
    (ch x y z).getLsbD i = if x.getLsbD i then y.getLsbD i else z.getLsbD i := by
  rw [← choice_of_bits]
  simp [ch, hi]

theorem maj_bit (x y z : Word) (i : Nat) :
    (maj x y z).getLsbD i = decide (2 ≤ (x.getLsbD i).toNat + (y.getLsbD i).toNat + (z.getLsbD i).toNat) := by
  rw [← majority_of_bits]
  simp [maj]

/-- Settles O26, from `ch_bit` and `maj_bit`. -/
theorem choiceAndMajorityBitwise : Obligations.ChoiceAndMajorityBitwise := by
  unfold Obligations.ChoiceAndMajorityBitwise
  intro s
  obtain ⟨hch, hchBad⟩ := runs_and_badFieldsRefused (i := .ch) rfl rfl (exec_ch s)
  obtain ⟨hmaj, hmajBad⟩ := runs_and_badFieldsRefused (i := .maj) rfl rfl (exec_maj s)
  exact ⟨⟨_, hch, rfl, fun _ hi => ch_bit s.x s.y s.z hi⟩, ⟨_, hmaj, rfl, fun i _ => maj_bit s.x s.y s.z i⟩, hchBad, hmajBad⟩

/-! ### The four sigma functions (R115 to R118) -/

theorem bsig0_eq (x : Word) : bsig0 x = x.rotateRight 2 ^^^ x.rotateRight 13 ^^^ x.rotateRight 22 := by
  simp only [bsig0, rotr_eq_rotateRight x (n := 2) (by omega), rotr_eq_rotateRight x (n := 13) (by omega),
    rotr_eq_rotateRight x (n := 22) (by omega)]

theorem bsig1_eq (x : Word) : bsig1 x = x.rotateRight 6 ^^^ x.rotateRight 11 ^^^ x.rotateRight 25 := by
  simp only [bsig1, rotr_eq_rotateRight x (n := 6) (by omega), rotr_eq_rotateRight x (n := 11) (by omega),
    rotr_eq_rotateRight x (n := 25) (by omega)]

theorem ssig0_eq (x : Word) : ssig0 x = x.rotateRight 7 ^^^ x.rotateRight 18 ^^^ (x >>> 3) := by
  simp only [ssig0, shr, rotr_eq_rotateRight x (n := 7) (by omega), rotr_eq_rotateRight x (n := 18) (by omega)]

theorem ssig1_eq (x : Word) : ssig1 x = x.rotateRight 17 ^^^ x.rotateRight 19 ^^^ (x >>> 10) := by
  simp only [ssig1, shr, rotr_eq_rotateRight x (n := 17) (by omega), rotr_eq_rotateRight x (n := 19) (by omega)]

/-- Settles O27, from the four equations above. -/
theorem sigmaFunctions : Obligations.SigmaFunctions := by
  unfold Obligations.SigmaFunctions
  intro s
  obtain ⟨hb0, hb0Bad⟩ := runs_and_badFieldsRefused (i := .bsig0) rfl rfl (exec_bsig0 s)
  obtain ⟨hb1, hb1Bad⟩ := runs_and_badFieldsRefused (i := .bsig1) rfl rfl (exec_bsig1 s)
  obtain ⟨hs0, hs0Bad⟩ := runs_and_badFieldsRefused (i := .ssig0) rfl rfl (exec_ssig0 s)
  obtain ⟨hs1, hs1Bad⟩ := runs_and_badFieldsRefused (i := .ssig1) rfl rfl (exec_ssig1 s)
  exact ⟨⟨_, hb0, rfl, bsig0_eq s.x⟩, ⟨_, hb1, rfl, bsig1_eq s.x⟩, ⟨_, hs0, rfl, ssig0_eq s.x⟩, ⟨_, hs1, rfl, ssig1_eq s.x⟩,
    hb0Bad, hb1Bad, hs0Bad, hs1Bad⟩

/-! ### ADD (R119) -/

/-- Settles O28: the sum of two words is modulo 2^32 (R7). -/
theorem addModulo : Obligations.AddModulo := by
  unfold Obligations.AddModulo
  intro s
  obtain ⟨hadd, hbad⟩ := runs_and_badFieldsRefused (i := .add) rfl rfl (exec_add s)
  exact ⟨⟨_, hadd, rfl, BitVec.toNat_add s.x s.y⟩, hbad⟩

end Sys2Proof.Machine

/-! # Proofs of the family 42_schedule.md: the push of a block word, EXP1 and EXPALL -/

namespace Sys2Proof.Machine

/-! ### The push (R130) -/

/-- R53: a bus write of MSG_IN is the push. -/
theorem memWrite_msgIn (v : Word) (s : State) : memWrite 0x020 v s = msgIn v s := rfl

/-- Settles O30, from `msgIn_push` and `msgIn_full`. -/
theorem pushAppendsBlockWord : Obligations.PushAppendsBlockWord := by
  unfold Obligations.PushAppendsBlockWord
  intro s v
  rw [memWrite_msgIn]
  refine ⟨fun hroom => ?_, msgIn_full v s⟩
  obtain ⟨t, hpush, hframe, hsc, hword⟩ := msgIn_push v s hroom
  exact ⟨t, hpush, hframe, hsc, (hword _).trans (if_pos rfl), fun j hj => (hword j).trans (if_neg hj)⟩

/-! ### What EXP1 and EXPALL answer (R132, R133) -/

theorem exec_exp1 {s : State} (h : 16 ≤ s.sc.val) (h' : s.sc.val < 64) : exec .exp1 s = .next (expandStep s) :=
  exec_effect (if_neg (by omega))

theorem exec_exp1_refused {s : State} (h : s.sc.val < 16 ∨ s.sc.val = 64) : exec .exp1 s = .next (recordError .seqSched s) :=
  exec_error (if_pos h)

theorem exec_expall {s : State} (h : 16 ≤ s.sc.val) : exec .expall s = .next (expandRest s) :=
  exec_effect (if_neg (by omega))

theorem exec_expall_refused {s : State} (h : s.sc.val < 16) : exec .expall s = .next (recordError .seqSched s) :=
  exec_error (if_pos h)

/-- Settles O31: where EXP1 is admitted its effect is one expansion step, whose words `expandStep_schedule` gives. -/
theorem exp1ExpandsOneWord : Obligations.Exp1ExpandsOneWord := by
  unfold Obligations.Exp1ExpandsOneWord
  intro s
  have hdecode : decode 0x20000000 = .ok .exp1 := decode_encode .exp1 rfl
  refine ⟨fun h h' => ?_, fun h => runs_of_exec hdecode (exec_exp1_refused h), badFieldsRefused .exp1 rfl s⟩
  have hword := expandStep_schedule s h h'
  exact ⟨expandStep s, runs_of_exec hdecode (exec_exp1 h h'), expandStep_frame s, expandStep_sc s h h',
    (hword _).trans (if_pos rfl), fun j hj => (hword j).trans (if_neg hj)⟩

/-- Settles O32: where EXPALL is admitted its effect is the expansion loop, whose words `expandRest_keeps` and `expandRest_adds` give. -/
theorem expallExpandsTheRest : Obligations.ExpallExpandsTheRest := by
  unfold Obligations.ExpallExpandsTheRest
  intro s
  have hdecode : decode 0x21000000 = .ok .expall := decode_encode .expall rfl
  refine ⟨fun h => ?_, fun h => runs_of_exec hdecode (exec_expall_refused h), badFieldsRefused .expall rfl s⟩
  exact ⟨expandRest s, runs_of_exec hdecode (exec_expall h), expandRest_frame s h, expandRest_sc s h, expandRest_keeps s h,
    expandRest_adds s h, expandRest_done s⟩

end Sys2Proof.Machine

/-! # Proofs of the family 43_compress.md: RND1 and RNDALL -/

namespace Sys2Proof.Machine

/-! ### What RND1 and RNDALL answer (R142, R143) -/

theorem exec_rnd1 {s : State} (hinit : ¬ (s.rc.val = 0 ∧ s.hv = false)) (hdue : s.rc.val < 64) (hword : s.rc.val < s.sc.val) :
    exec .rnd1 s = .next (roundStep s) :=
  exec_effect ((if_neg hinit).trans (if_neg (by omega)))

theorem exec_rnd1_notInit {s : State} (h : s.rc.val = 0 ∧ s.hv = false) : exec .rnd1 s = .next (recordError .notInit s) :=
  exec_error (if_pos h)

theorem exec_rnd1_refused {s : State} (hinit : ¬ (s.rc.val = 0 ∧ s.hv = false)) (h : s.rc.val = 64 ∨ s.sc.val ≤ s.rc.val) :
    exec .rnd1 s = .next (recordError .seqRound s) :=
  exec_error ((if_neg hinit).trans (if_pos h))

theorem exec_rndall {s : State} (hinit : ¬ (s.rc.val = 0 ∧ s.hv = false)) (hfull : s.sc.val = 64) :
    exec .rndall s = .next (roundsRest s) :=
  exec_effect ((if_neg hinit).trans (if_neg (by omega)))

theorem exec_rndall_notInit {s : State} (h : s.rc.val = 0 ∧ s.hv = false) : exec .rndall s = .next (recordError .notInit s) :=
  exec_error (if_pos h)

theorem exec_rndall_refused {s : State} (hinit : ¬ (s.rc.val = 0 ∧ s.hv = false)) (h : s.sc.val < 64) :
    exec .rndall s = .next (recordError .seqRound s) :=
  exec_error ((if_neg hinit).trans (if_pos h))

theorem decode_rnd1 : decode 0x30000000 = .ok .rnd1 := decode_encode .rnd1 rfl

theorem decode_rndall : decode 0x31000000 = .ok .rndall := decode_encode .rndall rfl

/-- Settles O34: where RND1 is admitted its effect is one round step, whose working variables `roundStep_wv` gives. -/
theorem rnd1PerformsOneRound : Obligations.Rnd1PerformsOneRound := by
  unfold Obligations.Rnd1PerformsOneRound
  intro s
  refine ⟨fun h => runs_of_exec decode_rnd1 (exec_rnd1_notInit h),
    fun hinit h => runs_of_exec decode_rnd1 (exec_rnd1_refused hinit h), fun hinit hdue hword => ?_,
    badFieldsRefused .rnd1 rfl s⟩
  exact ⟨roundStep s, runs_of_exec decode_rnd1 (exec_rnd1 hinit hdue hword), roundStep_frame s, roundStep_rc s hdue,
    roundStep_wv s hdue⟩

/-! ### The working variables of the remaining rounds (R143) -/

/-- The working variables before each round from RC on; up to RC, the input of round RC. -/
def State.roundSequence (s : State) : Nat → Vector Word 8
  | 0 => roundInput s
  | i + 1 =>
    if i < s.rc.val then roundInput s else roundVars (s.roundSequence i) (Sha256.roundConst i) (s.schedule i)

theorem roundSequence_start (s : State) : s.roundSequence s.rc.val = roundInput s := by
  cases hrc : s.rc.val with
  | zero => rfl
  | succ n => rw [State.roundSequence, if_pos (by omega)]

theorem roundSequence_next (s : State) {i : Nat} (h : s.rc.val ≤ i) :
    s.roundSequence (i + 1) = roundVars (s.roundSequence i) (Sha256.roundConst i) (s.schedule i) := by
  rw [State.roundSequence, if_neg (by omega)]

/-- Settles O35: where RNDALL is admitted its effect is the loop of rounds, and `roundsRest_wv` says that any sequence which starts at
the input of round RC and follows R141, as `roundSequence` does, ends at the working variables it leaves. -/
theorem rndallPerformsTheRest : Obligations.RndallPerformsTheRest := by
  unfold Obligations.RndallPerformsTheRest
  intro s
  refine ⟨fun h => runs_of_exec decode_rndall (exec_rndall_notInit h),
    fun hinit h => runs_of_exec decode_rndall (exec_rndall_refused hinit h), fun hinit hfull => ?_,
    badFieldsRefused .rndall rfl s⟩
  have hnext := fun i (h : s.rc.val ≤ i) (_ : i < 64) => roundSequence_next s h
  exact ⟨roundsRest s, runs_of_exec decode_rndall (exec_rndall hinit hfull), roundsRest_frame s, roundsRest_rc s,
    roundsRest_done s, s.roundSequence, roundSequence_start s, hnext,
    roundsRest_wv s s.roundSequence (roundSequence_start s) hnext⟩

/-! ### A run of RND1 commands (R142, R143) -/

/-- The bus with the RND1 command of every remaining round next. -/
def State.rnd1Bus (s : State) (rest : List HostEvent) : List HostEvent :=
  List.replicate (64 - s.rc.val) (cmdWrite 0x30000000) ++ rest

/-- The first of those commands does round RC and leaves those of the rounds after it (compare `roundsRest_next`). -/
theorem run_rnd1s_next {s : State} {rest : List HostEvent} (hinit : ¬ (s.rc.val = 0 ∧ s.hv = false)) (hdue : s.rc.val < 64)
    (hfull : s.sc.val = 64) (hbus : s.bus = s.rnd1Bus rest) :
    core.run (64 - s.rc.val) s =
      core.run (64 - (roundStep s).rc.val) ((roundStep s).onBus ((roundStep s).rnd1Bus rest) none) := by
  have hcount : 64 - s.rc.val = (64 - (roundStep s).rc.val) + 1 := by
    rw [roundStep_rc s hdue]
    omega
  have hhead : s.bus = cmdWrite 0x30000000 :: (roundStep s).rnd1Bus rest := by
    rw [hbus, State.rnd1Bus, hcount, List.replicate_succ, List.cons_append, State.rnd1Bus]
  rw [hcount]
  exact run_succ _ (step_command hhead decode_rnd1 (exec_rnd1 hinit hdue (by omega)))

/-- By induction on the rounds that remain, those commands do what the loop of RNDALL does. -/
theorem run_rnd1s (s : State) (rest : List HostEvent) (hinit : ¬ (s.rc.val = 0 ∧ s.hv = false)) (hfull : s.sc.val = 64) :
    core.run (64 - s.rc.val) (s.onBus (s.rnd1Bus rest) none) = .next ((roundsRest s).onBus rest none) := by
  refine roundsRest_induction (P := fun s => ¬ (s.rc.val = 0 ∧ s.hv = false) → s.sc.val = 64 →
    core.run (64 - s.rc.val) (s.onBus (s.rnd1Bus rest) none) = .next ((roundsRest s).onBus rest none)) ?_ ?_ s hinit hfull
  · intro s hdone _ _
    rw [roundsRest_done s hdone, State.rnd1Bus, hdone]
    rfl
  · intro s hdue ih hinit hfull
    have hrc := roundStep_rc s hdue
    have hsc : (roundStep s).sc = s.sc := by rw [roundStep_frame s]
    have hfirst := run_rnd1s_next (s := s.onBus (s.rnd1Bus rest) none) (rest := rest) hinit hdue hfull rfl
    rw [roundStep_onBus] at hfirst
    rw [roundsRest_next s hdue, ← ih (by omega) (by rw [hsc, hfull])]
    exact hfirst

/-- Settles O36: the first RND1 takes off what was read last (`run_rnd1s_next`), and the others end where the loop does. -/
theorem rnd1sMakeRndall : Obligations.Rnd1sMakeRndall := by
  unfold Obligations.Rnd1sMakeRndall
  intro s rest hfull hdue hhv hbus
  have hinit : ¬ (s.rc.val = 0 ∧ s.hv = false) := by
    rintro ⟨hzero, hunset⟩
    rw [hhv hzero] at hunset
    cases hunset
  have hrc := roundStep_rc s hdue
  have hsc : (roundStep s).sc = s.sc := by rw [roundStep_frame s]
  refine ⟨(roundsRest s).onBus rest none, ?_, exec_onBus (exec_rndall hinit hfull) rest none⟩
  rw [run_rnd1s_next hinit hdue hfull hbus, roundsRest_next s hdue]
  exact run_rnd1s (roundStep s) rest (by omega) (by rw [hsc, hfull])

end Sys2Proof.Machine

/-! # Proofs of the family 44_chain.md: ACCUM, BLOCK, and the chain of blocks from INIT on -/

namespace Sys2Proof.Machine

/-! ### What ACCUM answers (R151, R152) -/

theorem exec_accum {s : State} (h : s.rc.val = 64) : exec .accum s = .next (accumulateStep s) :=
  exec_effect (if_neg fun hne => hne h)

theorem exec_accum_refused {s : State} (h : s.rc.val ≠ 64) : exec .accum s = .next (recordError .seqAccum s) :=
  exec_error (if_pos h)

theorem accumulateStep_word (s : State) (k : Fin 8) : (accumulateStep s).h[k] = s.h[k] + s.wv[k] := by
  simp

/-- Settles O38: where ACCUM is admitted its effect is the accumulate step, whose sum of two words is modulo 2^32 (R7). -/
theorem accumFoldsTheBlock : Obligations.AccumFoldsTheBlock := by
  unfold Obligations.AccumFoldsTheBlock
  intro s
  have hdecode : decode 0x32000000 = .ok .accum := decode_encode .accum rfl
  refine ⟨fun h => ⟨accumulateStep s, runs_of_exec hdecode (exec_accum h), rfl, fun k => ?_⟩,
    fun h => runs_of_exec hdecode (exec_accum_refused h), badFieldsRefused .accum rfl s⟩
  rw [accumulateStep_word, BitVec.toNat_add]

/-! ### What BLOCK answers (R153) -/

theorem exec_block {s : State} (hinit : ¬ (s.rc.val = 0 ∧ s.hv = false)) (h : 16 ≤ s.sc.val) :
    exec .block s = .next (accumulateStep (roundsRest (expandRest s))) :=
  exec_effect ((if_neg hinit).trans (if_neg (by omega)))

theorem exec_block_notInit {s : State} (h : s.rc.val = 0 ∧ s.hv = false) : exec .block s = .next (recordError .notInit s) :=
  exec_error (if_pos h)

theorem exec_block_refused {s : State} (hinit : ¬ (s.rc.val = 0 ∧ s.hv = false)) (h : s.sc.val < 16) :
    exec .block s = .next (recordError .seqSched s) :=
  exec_error ((if_neg hinit).trans (if_pos h))

/-- The expansions and rounds of a block write the schedule, the working variables and the two counters. -/
theorem blockWork_frame {s : State} (h : 16 ≤ s.sc.val) :
    roundsRest (expandRest s) = { s with
      w := (expandRest s).w, sc := (expandRest s).sc, wv := (roundsRest (expandRest s)).wv, rc := (roundsRest (expandRest s)).rc } := by
  have hrounds := roundsRest_frame (expandRest s)
  have hexpand := expandRest_frame s h
  generalize roundsRest (expandRest s) = u at hrounds ⊢
  generalize expandRest s = v at hrounds hexpand ⊢
  rw [hrounds, hexpand]

/-- With the accumulation, the work of a block writes W, WV, H, SC and RC. -/
theorem accumulatedBlock_frame {s : State} (h : 16 ≤ s.sc.val) :
    accumulateStep (roundsRest (expandRest s)) = { s with
      w := (accumulateStep (roundsRest (expandRest s))).w, wv := (accumulateStep (roundsRest (expandRest s))).wv,
      h := (accumulateStep (roundsRest (expandRest s))).h, sc := 0, rc := 0 } := by
  have hframe := blockWork_frame h
  generalize roundsRest (expandRest s) = u at hframe ⊢
  rw [hframe]
  rfl

/-- EXPALL and RNDALL after it are admitted where BLOCK is, and do its work before the accumulation (R153). -/
theorem exec_expall_rndall {s : State} (hinit : ¬ (s.rc.val = 0 ∧ s.hv = false)) (h : 16 ≤ s.sc.val) :
    exec .expall s = .next (expandRest s) ∧ exec .rndall (expandRest s) = .next (roundsRest (expandRest s)) := by
  refine ⟨exec_expall h, exec_rndall ?_ (expandRest_sc s h)⟩
  rw [expandRest_frame s h]
  exact hinit

/-- Settles O39: where BLOCK is admitted so are the three commands, one after another, and both ways the effect is the accumulate step
after the two loops, which at SC = RC = 64 have nothing to do. -/
theorem blockIsExpallRndallAccum : Obligations.BlockIsExpallRndallAccum := by
  unfold Obligations.BlockIsExpallRndallAccum
  intro s
  have hdecode : decode 0x33000000 = .ok .block := decode_encode .block rfl
  refine ⟨?notInit, ?early, ?admitted, ?complete, badFieldsRefused .block rfl s⟩
  case notInit => exact fun h => runs_of_exec hdecode (exec_block_notInit h)
  case early => exact fun hinit h => runs_of_exec hdecode (exec_block_refused hinit h)
  case admitted =>
    intro hinit h
    obtain ⟨hexpall, hrndall⟩ := exec_expall_rndall hinit h
    refine ⟨_, _, _, hexpall, hrndall, exec_accum (roundsRest_rc _), runs_of_exec hdecode (exec_block hinit h),
      accumulatedBlock_frame h, fun k => ?_⟩
    rw [accumulateStep_word, accumulateStep_wv, blockWork_frame h]
  case complete =>
    intro hrc hsc
    rw [exec_block (by omega) (by omega), exec_accum hrc, expandRest_done s hsc, roundsRest_done s hrc]

/-! ### The accumulated block is the source's compression function (R131, R141, R151) -/

theorem blockWords_congr {s t : State} (h : ∀ i < 16, t.schedule i = s.schedule i) : t.blockWords = s.blockWords := by
  apply Vector.ext
  intro i hi
  have hword := h i hi
  rw [State.schedule_eq t (by omega), State.schedule_eq s (by omega)] at hword
  simpa [State.blockWords] using hword

/-- The rounds done have read words that were valid, and an expansion keeps those. -/
theorem roundsOk_expandRest {s : State} (hs : s.RoundsOk) (hle : s.rc.val ≤ s.sc.val) (h : 16 ≤ s.sc.val) :
    (expandRest s).RoundsOk := by
  have hframe := expandRest_frame s h
  refine roundsOk_congr (s := s) (by rw [hframe]) (by rw [hframe]) (by rw [hframe]) (fun i hi => ?_) hs
  exact expandRest_keeps s h i (by omega)

/-- With all words and all rounds done, WV is what the 64 rounds make of H, and the accumulation adds it to H. -/
theorem accumulateStep_compress {s : State} (hschedule : s.ScheduleOk) (hrounds : s.RoundsOk) (hsc : s.sc.val = 64)
    (hrc : s.rc.val = 64) : (accumulateStep s).h = Sha256.compress s.blockWords s.h := by
  have hwv : s.wv = Sha256.rounds s.h (Sha256.schedWord s.blockWords) 64 := by
    rw [hrounds (by omega), hrc]
    exact rounds_congr fun i hi => schedule_is_schedWord hschedule i (by omega)
  rw [accumulateStep_h, Sha256.compress, ← hwv]

/-- From any point of a block's work on, the two loops and the accumulation compute the compression function. -/
theorem blockWork_compress {s : State} (hle : s.rc.val ≤ s.sc.val) (hschedule : s.ScheduleOk) (hrounds : s.RoundsOk)
    (h : 16 ≤ s.sc.val) : (accumulateStep (roundsRest (expandRest s))).h = Sha256.compress s.blockWords s.h := by
  have hframe := blockWork_frame h
  have hw : (roundsRest (expandRest s)).w = (expandRest s).w := by rw [hframe]
  have hsc : (roundsRest (expandRest s)).sc = (expandRest s).sc := by rw [hframe]
  have hh : (roundsRest (expandRest s)).h = s.h := by rw [hframe]
  have hwords : (roundsRest (expandRest s)).blockWords = s.blockWords :=
    blockWords_congr fun i hi => (State.schedule_congr hw i).trans (expandRest_keeps s h i (by omega))
  rw [accumulateStep_compress (scheduleOk_congr hw hsc (scheduleOk_expandRest hschedule h))
    (roundsOk_roundsRest (roundsOk_expandRest hrounds hle h)) (by rw [hsc, expandRest_sc s h]) (roundsRest_rc _), hwords, hh]

/-- With the 16 words pushed and no round done, the counters have nothing to vouch for. -/
theorem pushedBlock_compress {s : State} (hsc : s.sc.val = 16) (hrc : s.rc.val = 0) :
    (accumulateStep (roundsRest (expandRest s))).h = Sha256.compress s.blockWords s.h :=
  blockWork_compress (by omega) (scheduleOk_of_short (by omega)) (roundsOk_of_zero hrc) (by omega)

/-- Settles O49: BLOCK's effect is `blockWork_compress`, and ACCUM's `accumulateStep_compress`, since by R36 no round is ahead of its
word. -/
theorem blockComputesCompression : Obligations.BlockComputesCompression := by
  unfold Obligations.BlockComputesCompression
  intro s hinv hschedule hrounds hhv h
  have hle := hinv.rc_le_sc
  refine ⟨⟨_, exec_block (by simp [hhv]) h, blockWork_compress hle hschedule hrounds h⟩, fun hrc => ?_⟩
  exact ⟨_, exec_accum hrc, accumulateStep_compress hschedule hrounds (by omega) hrc⟩

/-! ### A block on the bus (R173) -/

/-- A run whose first event is a command goes on from the state the command answers. -/
theorem run_command {i : Instr} {s t : State} (n : Nat) (hwf : i.wf = true) (h : exec i s = .next t) (rest : List HostEvent)
    (d : Option Word) : core.run (n + 1) (s.onBus (command i :: rest) d) = core.run n (t.onBus rest none) :=
  run_succ n (step_command (t := t.onBus (command i :: rest) d) rfl (decode_encode i hwf) (exec_onBus h _ d))

/-- Both ways of ending a block leave the state BLOCK answers. -/
theorem run_finishBlock {s : State} (whole : Bool) (rest : List HostEvent) (d : Option Word)
    (hinit : ¬ (s.rc.val = 0 ∧ s.hv = false)) (h : 16 ≤ s.sc.val) :
    core.run (finishBlock whole).length (s.onBus (finishBlock whole ++ rest) d) =
      .next ((accumulateStep (roundsRest (expandRest s))).onBus rest none) := by
  cases whole with
  | true => exact run_command 0 rfl (exec_block hinit h) rest d
  | false =>
    obtain ⟨hexpall, hrndall⟩ := exec_expall_rndall hinit h
    calc
      _ = core.run 2 ((expandRest s).onBus (command .rndall :: command .accum :: rest) none) := run_command 2 rfl hexpall _ d
      _ = core.run 1 ((roundsRest (expandRest s)).onBus (command .accum :: rest) none) := run_command 1 rfl hrndall _ none
      _ = _ := run_command 0 rfl (exec_accum (roundsRest_rc _)) rest none

/-- The 16 pushes of a block make its words the block words of the schedule. -/
theorem run_blockWords {s : State} {rest : List HostEvent} (b : Vector Word 16) (hsc : s.sc = 0)
    (hbus : s.bus = b.toList.map pushw ++ rest) :
    ∃ t : State, core.run b.toList.length s = .next t ∧ t = { s with w := t.w, sc := t.sc, bus := rest, rdata := t.rdata } ∧
      t.sc.val = 16 ∧ t.blockWords = b := by
  have hlength : b.toList.length = 16 := b.length_toList
  have hzero : s.sc.val = 0 := by rw [hsc]; rfl
  obtain ⟨t, hrun, hframe, hcount, hwords⟩ := run_pushes rest b.toList s hbus (by omega)
  refine ⟨t, hrun, hframe, by omega, Vector.ext fun i hi => ?_⟩
  have hword := hwords i
  rw [if_pos (by omega), State.schedule_eq t (by omega), hzero, Nat.sub_zero] at hword
  simpa [State.blockWords, hi] using hword

/-- A block, pushed and ended at the start of a block (HV = 1, SC = RC = 0), makes of H the compression function of the block and H, and
leaves the start of the next block. -/
theorem run_blockSequence {s : State} {rest : List HostEvent} (b : Vector Word 16 × Bool) (hhv : s.hv = true) (hsc : s.sc = 0)
    (hrc : s.rc = 0) (hbus : s.bus = blockSequence b ++ rest) :
    ∃ t : State, core.run (blockSequence b).length s = .next t ∧
      t = { s with w := t.w, wv := t.wv, h := Sha256.compress b.1 s.h, sc := 0, rc := 0, bus := rest, rdata := none } := by
  obtain ⟨words, whole⟩ := b
  rw [blockSequence, List.append_assoc] at hbus
  obtain ⟨u, hpushes, hframe, hfull, hwords⟩ := run_blockWords words hsc hbus
  have huhv : u.hv = true := by rw [hframe]; exact hhv
  have hurc : u.rc.val = 0 := by rw [hframe, hrc]; rfl
  have huh : u.h = s.h := by rw [hframe]
  have hubus : u = u.onBus (finishBlock whole ++ rest) u.rdata := by rw [hframe]; rfl
  have hfinish := run_finishBlock whole rest u.rdata (s := u) (by simp [huhv]) (by omega)
  rw [← hubus] at hfinish
  have hcompress := pushedBlock_compress hfull hurc
  rw [hwords, huh] at hcompress
  refine ⟨(accumulateStep (roundsRest (expandRest u))).onBus rest none, ?_, ?_⟩
  · rw [blockSequence, List.length_append, List.length_map, run_add _ _ hpushes, hfinish]
  · have hblock := accumulatedBlock_frame (s := u) (by omega)
    rw [hcompress] at hblock
    generalize accumulateStep (roundsRest (expandRest u)) = t at hblock ⊢
    rw [hblock, hframe]
    rfl

/-! ### A message from INIT on (R154) -/

/-- Any number of blocks leaves in H the fold of the compression function over them. -/
theorem run_blocks (rest : List HostEvent) (blocks : List (Vector Word 16 × Bool)) :
    ∀ s : State, s.hv = true → s.sc = 0 → s.rc = 0 → s.bus = blocks.flatMap blockSequence ++ rest →
    ∃ t : State, core.run (blocks.flatMap blockSequence).length s = .next t ∧
      t = { s with
        w := t.w, wv := t.wv, h := (blocks.map Prod.fst).foldl (fun h b => Sha256.compress b h) s.h, sc := 0, rc := 0, bus := rest,
        rdata := t.rdata } := by
  induction blocks with
  | nil =>
    intro s _ hsc hrc hbus
    -- With no block to come the state is already the one claimed.
    have hrest : s.bus = rest := hbus
    refine ⟨s, rfl, ?_⟩
    cases s
    cases hsc
    cases hrc
    cases hrest
    rfl
  | cons b blocks ih =>
    intro s hhv hsc hrc hbus
    rw [List.flatMap_cons, List.append_assoc] at hbus
    obtain ⟨u, hfirst, hframe⟩ := run_blockSequence b hhv hsc hrc hbus
    obtain ⟨t, hothers, hframe'⟩ := ih u (by rw [hframe]; exact hhv) (by rw [hframe]) (by rw [hframe]) (by rw [hframe])
    refine ⟨t, ?_, ?_⟩
    · rw [List.flatMap_cons, List.length_append, run_add _ _ hfirst, hothers]
    · rw [hframe', hframe]
      rfl

/-- From INIT on, whatever the state before it, a message leaves in H the source's hash of its blocks. -/
theorem run_foldSequence {s : State} {rest : List HostEvent} (blocks : List (Vector Word 16 × Bool))
    (hbus : s.bus = foldSequence blocks ++ rest) :
    ∃ t : State, core.run (foldSequence blocks).length s = .next t ∧
      t = { s with
        w := t.w, wv := t.wv, h := Sha256.hash (blocks.map Prod.fst), hv := true, sc := 0, rc := 0, bus := rest,
        rdata := t.rdata } := by
  have hinit := step_command (s := s) hbus (decode_encode .init rfl) (exec_init s)
  obtain ⟨t, hblocks, hframe⟩ := run_blocks rest blocks
    ({ s with h := H_INITIAL, hv := true, sc := 0, rc := 0 }.onBus (blocks.flatMap blockSequence ++ rest) none) rfl rfl rfl rfl
  exact ⟨t, (run_succ _ hinit).trans hblocks, hframe⟩

/-- Settles O51, reading the fields of the state `run_foldSequence` gives. -/
theorem blocksFoldIntoHash : Obligations.BlocksFoldIntoHash := by
  unfold Obligations.BlocksFoldIntoHash
  intro s blocks rest hbus
  obtain ⟨t, hrun, hframe⟩ := run_foldSequence blocks hbus
  rw [hframe] at hrun
  exact ⟨_, hrun, rfl, rfl, rfl, rfl, rfl, rfl, rfl, rfl, rfl, rfl, rfl, rfl, rfl⟩

/-! ### The constants (R140, R150) -/

/-- The first 64 primes. -/
def firstPrimes : List Nat :=
  [2, 3, 5, 7, 11, 13, 17, 19, 23, 29, 31, 37, 41, 43, 47, 53, 59, 61, 67, 71, 73, 79, 83, 89, 97, 101, 103, 107, 109, 113, 127, 131,
    137, 139, 149, 151, 157, 163, 167, 173, 179, 181, 191, 193, 197, 199, 211, 223, 227, 229, 233, 239, 241, 251, 257, 263, 269, 271,
    277, 281, 283, 293, 307, 311]

/-- They are what is left of the numbers below 312 when those with a divisor are taken out. -/
theorem undivided_eq_firstPrimes :
    ((List.range 312).filter fun p => decide (2 ≤ p) && (List.range p).all fun d => decide (d < 2) || p % d != 0) = firstPrimes := by
  decide +kernel

/-- G1: with n the whole part of the root, below 7 since the primes are below 7^3, K[i] is the first 32 bits after the point. -/
theorem K_cube_roots : ∀ i : Fin 64, ∃ n < 7,
    (n * 2 ^ 32 + K[i].toNat) ^ 3 ≤ firstPrimes.getD i.val 0 * 2 ^ 96 ∧
      firstPrimes.getD i.val 0 * 2 ^ 96 < (n * 2 ^ 32 + K[i].toNat + 1) ^ 3 := by
  decide +kernel

/-- G2: so is H_INITIAL[i] of the square root, whose whole part is below 5. -/
theorem H_INITIAL_square_roots : ∀ i : Fin 8, ∃ n < 5,
    (n * 2 ^ 32 + H_INITIAL[i].toNat) ^ 2 ≤ firstPrimes.getD i.val 0 * 2 ^ 64 ∧
      firstPrimes.getD i.val 0 * 2 ^ 64 < (n * 2 ^ 32 + H_INITIAL[i].toNat + 1) ^ 2 := by
  decide +kernel

/-- Settles O37: the primes are the 64 of `firstPrimes`, and for each the two bounds on its root are evaluated. -/
theorem constantsAreFractionalRoots : Obligations.ConstantsAreFractionalRoots := by
  unfold Obligations.ConstantsAreFractionalRoots
  rw [undivided_eq_firstPrimes]
  refine ⟨rfl, fun i => ?_, fun i => ?_⟩
  · obtain ⟨n, -, hroot⟩ := K_cube_roots i
    exact ⟨n, hroot⟩
  · obtain ⟨n, -, hroot⟩ := H_INITIAL_square_roots i
    exact ⟨n, hroot⟩

end Sys2Proof.Machine

/-! # Proofs of the family 45_encoder.md: ENCODE and the digest buffer -/

namespace Sys2Proof.Machine

/-! ### What ENCODE answers (R161) -/

theorem exec_encode {s : State} (h : s.hv = true) : exec .encode s = .next { s with dg := digestWords s.h, dv := true } :=
  exec_effect (if_neg (by simp [h]))

theorem exec_encode_notInit {s : State} (h : s.hv = false) : exec .encode s = .next (recordError .notInit s) :=
  exec_error (if_pos h)

/-! ### The characters of the digest buffer (R160) -/

theorem digestCharacter_of_encoded {t : State} {h : Vector Word 8} (hdg : t.dg = digestWords h) (j : Fin 64) :
    t.digestCharacter j = digestChar h j := by
  simp only [State.digestCharacter, hdg]
  exact digestWords_char h j

theorem digestNibble_toNat (h : Vector Word 8) (j : Fin 64) :
    (digestNibble h j).toNat = (h.toList.getD (j.val / 8) 0).toNat / 16 ^ (7 - j.val % 8) % 16 := by
  have hword : h.toList.getD (j.val / 8) 0 = h[j.val >>> 3] := by
    simp [Nat.shiftRight_eq_div_pow, show j.val / 8 < 8 by omega]
  have hplace : 28 - 4 * (j.val % 8) = 4 * (7 - j.val % 8) := by omega
  rw [digestNibble, BitVec.extractLsb'_toNat, hword, Nat.shiftRight_eq_div_pow, hplace, Nat.pow_mul]

/-- Settles O40: the digest buffer holds the characters of R160, and the value of a character is that of its nibble's code. -/
theorem encodeRendersHash : Obligations.EncodeRendersHash := by
  unfold Obligations.EncodeRendersHash
  intro s
  have hdecode : decode 0x40000000 = .ok .encode := decode_encode .encode rfl
  refine ⟨fun h => ⟨_, runs_of_exec hdecode (exec_encode h), rfl, fun j => ?_⟩,
    fun h => runs_of_exec hdecode (exec_encode_notInit h), badFieldsRefused .encode rfl s⟩
  rw [digestCharacter_of_encoded rfl, digestChar, hexChar_toNat, digestNibble_toNat]

/-! ### The digest loses nothing (R160) -/

/-- Bit i of a word is bit i % 4 of its nibble 7 - i / 4, so the eight nibbles make the word. -/
theorem word_eq_of_nibbles {v w : Word} (h : ∀ k < 8, v.extractLsb' (28 - 4 * k) 4 = w.extractLsb' (28 - 4 * k) 4) : v = w := by
  apply BitVec.eq_of_getLsbD_eq
  intro i hi
  have hbit := congrArg (BitVec.getLsbD · (i % 4)) (h (7 - i / 4) (by omega))
  simpa [show i % 4 < 4 by omega, show 28 - 4 * (7 - i / 4) + i % 4 = i by omega] using hbit

theorem hash_eq_of_digestNibble {h h' : Vector Word 8} (hnibble : ∀ j, digestNibble h j = digestNibble h' j) : h = h' := by
  apply Vector.ext
  intro i hi
  refine word_eq_of_nibbles fun k hk => ?_
  have hword : (8 * i + k) >>> 3 = i := by rw [Nat.shiftRight_eq_div_pow]; omega
  have hplace : (8 * i + k) % 8 = k := by omega
  simpa only [digestNibble, hword, hplace] using hnibble ⟨8 * i + k, by omega⟩

theorem digestWords_injective {h h' : Vector Word 8} (hdg : digestWords h = digestWords h') : h = h' := by
  refine hash_eq_of_digestNibble fun j => hexChar_inj _ _ ?_
  change digestChar h j = digestChar h' j
  rw [← digestWords_char, ← digestWords_char]
  simp only [hdg]

/-- Settles O41: what ENCODE leaves in DG is `digestWords` of H, which is injective. -/
theorem digestDeterminesHash : Obligations.DigestDeterminesHash := by
  unfold Obligations.DigestDeterminesHash
  intro s s' t t' hexec hexec' hhv hhv' hdg
  rw [exec_encode hhv] at hexec
  rw [exec_encode hhv'] at hexec'
  cases hexec
  cases hexec'
  exact digestWords_injective hdg

end Sys2Proof.Machine

/-! # Proofs of the family 49_host_procedure.md: the host's padding, the digest sequence, and the interleavings of a block -/

namespace Sys2Proof.Machine

/-! ### The length field (R171) -/

/-- The most significant byte first, the low k bytes of m have the value m modulo 256^k. -/
theorem foldl_bigEndian (m k a : Nat) :
    ((List.range k).reverse.map fun i => BitVec.ofNat 8 (m >>> (8 * i))).foldl (fun n b => n * 256 + b.toNat) a =
      a * 256 ^ k + m % 256 ^ k := by
  induction k generalizing a with
  | zero => simp [Nat.mod_one]
  | succ k ih =>
    have hbyte : (BitVec.ofNat 8 (m >>> (8 * k))).toNat = m / 256 ^ k % 256 := by
      rw [BitVec.toNat_ofNat, Nat.shiftRight_eq_div_pow, Nat.pow_mul]
    rw [List.range_succ, List.reverse_concat, List.map_cons, List.foldl_cons, ih, hbyte, Nat.mod_pow_succ,
      Nat.pow_succ', Nat.add_mul, Nat.mul_assoc, Nat.mul_comm (256 ^ k)]
    omega

theorem be64_length (n : Nat) : (be64 n).length = 8 := rfl

theorem be64_value (n : Nat) : (be64 n).foldl (fun n b => n * 256 + b.toNat) 0 = n % 2 ^ 64 := by
  have hfold := foldl_bigEndian (n % 2 ^ 64) 8 0
  have hsize : 256 ^ 8 = 2 ^ 64 := by decide
  rw [hsize, Nat.mod_mod, Nat.zero_mul, Nat.zero_add] at hfold
  exact hfold

/-! ### The parts of the padded message (R170) -/

theorem padZeros_fills (len : Nat) : len + 1 + padZeros len + 8 = 64 * blockCount len := by
  unfold padZeros blockCount
  omega

theorem padZeros_least {len k : Nat} (h : (len + 1 + k) % 64 = 56) : padZeros len ≤ k := by
  unfold padZeros
  omega

theorem pad_eq (msg : List Byte) :
    pad msg = (msg ++ [0x80#8]) ++ (List.replicate (padZeros msg.length) 0x00#8 ++ be64 (msg.length * 8)) := by
  simp [pad]

theorem pad_length (msg : List Byte) : (pad msg).length = 64 * blockCount msg.length := by
  rw [pad_eq, ← padZeros_fills]
  simp [be64_length]
  omega

theorem pad_zero (msg : List Byte) {i : Nat} (hlo : msg.length + 1 ≤ i) (hhi : i < msg.length + 1 + padZeros msg.length) :
    (pad msg)[i]? = some 0 := by
  rw [pad_eq, List.getElem?_append_right (by simpa using hlo), List.getElem?_append_left (by simp; omega),
    List.getElem?_replicate_of_lt (by simp; omega)]
  rfl

/-- Settles O52: the four parts of the padded message by their lengths, the count of zero bytes by arithmetic modulo 64. -/
theorem paddingFillsWholeBlocks : Obligations.PaddingFillsWholeBlocks := by
  unfold Obligations.PaddingFillsWholeBlocks
  intro msg
  have hfills := padZeros_fills msg.length
  have hfront : (msg ++ [0x80#8]).length = msg.length + 1 := by simp
  refine ⟨pad_length msg, ?_, ?_, fun i hlo hhi => pad_zero msg hlo (by omega), by omega, fun k => padZeros_least,
    be64_value _⟩
  · rw [pad_eq, ← hfront, List.take_left]
    rfl
  · rw [pad_eq, ← List.append_assoc]
    exact List.drop_left' (by simp; omega)

/-! ### The reads of the digest sequence (R173) -/

/-- The read number k of a run of reads leaves its value on the bus (R52). -/
theorem run_reads_through {s : State} {l : List (BitVec 9)} {rest : List HostEvent} (hbus : s.bus = l.map rd ++ rest)
    (haligned : ∀ o ∈ l, o.toNat % 4 = 0) {k : Nat} (hk : k < l.length) :
    core.run (k + 1) s = .next (s.onBus ((l.drop (k + 1)).map rd ++ rest) (some (memRead l[k].toNat s))) := by
  have hsplit : s.bus = (l.take (k + 1)).map rd ++ ((l.drop (k + 1)).map rd ++ rest) := by
    rw [hbus, ← List.append_assoc, ← List.map_append, List.take_append_drop]
  have hlength : (l.take (k + 1)).length = k + 1 := by simp; omega
  have hne : l.take (k + 1) ≠ [] := List.ne_nil_of_length_eq_add_one hlength
  have hrun := run_reads _ _ s hsplit fun o ho => haligned o (List.mem_of_mem_take ho)
  have hlast : (l.take (k + 1)).getLast hne = l[k] := by simp [List.getLast_take, hk]
  rwa [hlength, dif_neg hne, hlast] at hrun

/-- The offsets the digest sequence reads: DG[0] to DG[15], then STATUS. -/
def digestReads : List (BitVec 9) := (List.finRange 16).map (fun k => BitVec.ofNat 9 (0x080 + 4 * k.val)) ++ [0x004#9]

theorem digestSequence_eq (msg : List Byte) : digestSequence msg = hashSequence msg ++ digestReads.map rd := by
  simp [digestSequence, digestReads, Function.comp_def, rddg, rdstat]

theorem digestReads_length : digestReads.length = 17 := by
  simp [digestReads]

theorem digestReads_aligned : ∀ o ∈ digestReads, o.toNat % 4 = 0 := by decide

theorem digestReads_dg (k : Fin 16) : (digestReads[k.val]'(by rw [digestReads_length]; omega)).toNat = 0x080 + 4 * k.val := by
  revert k
  decide

theorem ecode_of_clean {s : State} (hinv : s.Inv) (hclean : s.Clean) : s.ecode = .none :=
  Decidable.byContradiction fun hne => absurd (hinv.code_iff_err.mp hne) (ne_true_of_eq_false hclean)

/-- STATUS once the digest is ready and no error is recorded (R34). -/
theorem statusWord_ready {t : State} (hsc : t.sc = 0) (hrc : t.rc = 0) (hhv : t.hv = true) (hdv : t.dv = true)
    (herr : t.err = false) (hcode : t.ecode = .none) : statusWord t = 0x00000003 := by
  rw [statusWord, hsc, hrc, hhv, hdv, herr, hcode]
  decide

/-! ### The digest of a message (R173) -/

/-- The sequence up to ENCODE leaves the message's hash in H and its characters in DG, whatever the state before it. -/
theorem run_hashSequence {s : State} {rest : List HostEvent} (msg : List Byte) (hbus : s.bus = hashSequence msg ++ rest) :
    ∃ t : State, core.run (hashSequence msg).length s = .next t ∧
      t = { s with
        w := t.w, wv := t.wv, h := Sha256.hash (messageBlocks msg), hv := true, sc := 0, rc := 0,
        dg := digestWords (Sha256.hash (messageBlocks msg)), dv := true, bus := rest, rdata := none } := by
  rw [hashSequence, List.append_assoc] at hbus
  obtain ⟨u, hblocks, hframe⟩ := run_foldSequence _ hbus
  have hfst : ((messageBlocks msg).map fun b => (b, true)).map Prod.fst = messageBlocks msg := by
    simp [Function.comp_def]
  rw [hfst] at hframe
  have hencode := step_command (s := u) (rest := rest) (by rw [hframe]; rfl) (decode_encode .encode rfl)
    (exec_encode (by rw [hframe]))
  rw [hashSequence, List.length_append]
  refine ⟨_, (run_add _ 1 hblocks).trans (run_succ 0 hencode), ?_⟩
  rw [hframe]
  rfl

/-- Settles O53: `run_hashSequence`, and then 17 reads that change nothing of the core. -/
theorem digestSequenceHashesMessage : Obligations.DigestSequenceHashesMessage := by
  unfold Obligations.DigestSequenceHashesMessage
  intro s msg rest hbus
  rw [digestSequence_eq, List.append_assoc] at hbus
  obtain ⟨u, hhash, hframe⟩ := run_hashSequence msg hbus
  have hubus : u.bus = digestReads.map rd ++ rest := congrArg State.bus hframe
  have hdg : u.dg = digestWords (Sha256.hash (messageBlocks msg)) := congrArg State.dg hframe
  have herr : u.err = s.err := by rw [hframe]
  have hecode : u.ecode = s.ecode := by rw [hframe]
  have hread := fun {k} => run_reads_through hubus digestReads_aligned (k := k)
  refine ⟨u.onBus rest (some (statusWord u)), ?run, congrArg State.h hframe, fun j => ?chars, fun k => ?reads,
    congrArg State.dv hframe, herr, hecode, rfl, fun hinv hclean => ?status⟩
  case run =>
    rw [digestSequence_eq, List.length_append, run_add _ _ hhash, List.length_map, digestReads_length]
    exact hread (by rw [digestReads_length]; omega)
  case chars =>
    have hchar := digestCharacter_of_encoded (t := u.onBus rest (some (statusWord u))) hdg j
    exact ⟨hchar ▸ hexChar_isHex _, hchar⟩
  case reads =>
    refine ⟨_, (run_add _ (k.val + 1) hhash).trans (hread (by rw [digestReads_length]; omega)), ?_⟩
    rw [digestReads_dg, memRead_dg]
    rfl
  case status =>
    have hready : statusWord u = 0x00000003 :=
      statusWord_ready (congrArg State.sc hframe) (congrArg State.rc hframe) (congrArg State.hv hframe) (congrArg State.dv hframe)
        (herr.trans hclean) (hecode.trans (ecode_of_clean hinv hclean))
    exact congrArg some hready

/-! ### A block in work, however its expansions and rounds are interleaved (R173) -/

/-- A block in work over the chaining value `h`: HV = 1 and the counters mean what they say. -/
structure State.Working (s : State) (h : Vector Word 8) : Prop where
  hash : s.h = h
  hv : s.hv = true
  rc_le_sc : s.rc.val ≤ s.sc.val
  schedule : s.ScheduleOk
  rounds : s.RoundsOk

/-- The block words pushed so far, in order: the first SC words of the schedule, up to 16. -/
def State.pushed (s : State) : List Word := (List.range (min s.sc.val 16)).map s.schedule

/-- From `s` on the words `l` were pushed and the block stayed in work, unless an error is recorded. -/
def WorkDone (s t : State) (l : List Word) : Prop :=
  t.Clean → s.Clean ∧ ∀ h, s.Working h → t.Working h ∧ t.pushed = s.pushed ++ l

theorem working_onBus {s : State} {h : Vector Word 8} (b : List HostEvent) (d : Option Word) (hs : s.Working h) :
    (s.onBus b d).Working h := by
  obtain ⟨hash, hv, hle, hschedule, hrounds⟩ := hs
  exact ⟨hash, hv, hle, hschedule, hrounds⟩

theorem not_clean_recordError (c : ECode) (s : State) : ¬ (recordError c s).Clean :=
  ne_false_of_eq_true (recordError_err c s)

namespace WorkDone

variable {s t u : State} {l l' : List Word}

theorem refl (s : State) : WorkDone s s [] := fun hclean => ⟨hclean, fun _ hs => ⟨hs, (List.append_nil _).symm⟩⟩

theorem trans (hst : WorkDone s t l) (htu : WorkDone t u l') : WorkDone s u (l ++ l') := by
  intro hclean
  obtain ⟨htclean, htu⟩ := htu hclean
  obtain ⟨hsclean, hst⟩ := hst htclean
  refine ⟨hsclean, fun h hs => ?_⟩
  obtain ⟨ht, hpushed⟩ := hst h hs
  obtain ⟨hu, hpushed'⟩ := htu h ht
  exact ⟨hu, by rw [hpushed', hpushed, List.append_assoc]⟩

theorem of_error (c : ECode) (s : State) (l : List Word) : WorkDone s (recordError c s) l :=
  fun hclean => absurd hclean (not_clean_recordError c s)

/-- What is on the bus is no part of the block in work. -/
theorem of_onBus {b b' : List HostEvent} {d d' : Option Word} (h : WorkDone (s.onBus b d) t l) :
    WorkDone s (t.onBus b' d') l := by
  intro hclean
  obtain ⟨hsclean, hwork⟩ := h hclean
  refine ⟨hsclean, fun h hs => ?_⟩
  obtain ⟨ht, hpushed⟩ := hwork h (working_onBus b d hs)
  exact ⟨working_onBus b' d' ht, hpushed⟩

/-- Growth of the schedule keeps the words the rounds have read, since RC ≤ SC. -/
theorem of_schedule_frame (ht : t = { s with w := t.w, sc := t.sc }) (rises : s.sc.val ≤ t.sc.val)
    (keeps : ∀ j < s.sc.val, t.schedule j = s.schedule j) (ok : s.ScheduleOk → t.ScheduleOk)
    (hpushed : t.pushed = s.pushed ++ l) : WorkDone s t l := by
  have hh : t.h = s.h := by rw [ht]
  have hhv : t.hv = s.hv := by rw [ht]
  have hwv : t.wv = s.wv := by rw [ht]
  have hrc : t.rc = s.rc := by rw [ht]
  have herr : t.err = s.err := by rw [ht]
  refine fun hclean => ⟨herr.symm.trans hclean, fun h hs =>
    ⟨⟨hh.trans hs.hash, hhv.trans hs.hv, ?_, ok hs.schedule, ?_⟩, hpushed⟩⟩
  · rw [hrc]
    exact Nat.le_trans hs.rc_le_sc rises
  · exact roundsOk_congr hwv hrc hh (fun i hi => keeps i (Nat.lt_of_lt_of_le hi hs.rc_le_sc)) hs.rounds

/-- An expansion pushes no block word: all 16 are there. -/
theorem of_expansion (h : 16 ≤ s.sc.val) (ht : t = { s with w := t.w, sc := t.sc }) (rises : s.sc.val ≤ t.sc.val)
    (keeps : ∀ j < s.sc.val, t.schedule j = s.schedule j) (ok : s.ScheduleOk → t.ScheduleOk) : WorkDone s t [] := by
  refine of_schedule_frame ht rises keeps ok ?_
  rw [State.pushed, State.pushed, Nat.min_eq_right h, Nat.min_eq_right (Nat.le_trans h rises), List.append_nil]
  exact List.map_congr_left fun j hj => keeps j (by have := List.mem_range.mp hj; omega)

/-- Rounds leave the schedule as it is. -/
theorem of_rounds_frame (ht : t = { s with wv := t.wv, rc := t.rc }) (hle : t.rc.val ≤ s.sc.val)
    (ok : s.RoundsOk → t.RoundsOk) : WorkDone s t [] := by
  have hh : t.h = s.h := by rw [ht]
  have hhv : t.hv = s.hv := by rw [ht]
  have hw : t.w = s.w := by rw [ht]
  have hsc : t.sc = s.sc := by rw [ht]
  have herr : t.err = s.err := by rw [ht]
  have hschedule : t.schedule = s.schedule := funext (State.schedule_congr hw)
  refine fun hclean => ⟨herr.symm.trans hclean, fun h hs =>
    ⟨⟨hh.trans hs.hash, hhv.trans hs.hv, ?_, scheduleOk_congr hw hsc hs.schedule, ok hs.rounds⟩, ?_⟩⟩
  · rw [hsc]
    exact hle
  · rw [State.pushed, State.pushed, hschedule, hsc, List.append_nil]

end WorkDone

/-! ### What each event of a block's work does (R130, R132, R133, R142, R143) -/

theorem workDone_msgIn {v : Word} {s t : State} (h : msgIn v s = .next t) : WorkDone s t [v] := by
  by_cases hsc : s.sc.val < 16
  · obtain ⟨hframe, hcount, hwords⟩ := push_next hsc h
    have keeps : ∀ j < s.sc.val, t.schedule j = s.schedule j := fun j hj => by rw [hwords, if_neg (by omega)]
    refine .of_schedule_frame hframe (by omega) keeps (fun _ => scheduleOk_of_short (by omega)) ?_
    have hnew : t.schedule s.sc.val = v := by rw [hwords, if_pos rfl]
    rw [State.pushed, State.pushed, hcount, Nat.min_eq_left hsc, Nat.min_eq_left (Nat.le_of_lt hsc), List.range_succ,
      List.map_append, List.map_singleton, hnew, List.map_congr_left fun j hj => keeps j (List.mem_range.mp hj)]
  · rw [msgIn_full v s (by omega)] at h
    cases h
    exact WorkDone.of_error .seqSched s [v]

theorem workDone_exp1 {s : State} (h : 16 ≤ s.sc.val) (h' : s.sc.val < 64) : WorkDone s (expandStep s) [] := by
  have hsc := expandStep_sc s h h'
  refine .of_expansion h (expandStep_frame s) (by omega) (fun j hj => ?_) (fun hs => scheduleOk_expandStep hs h h')
  rw [expandStep_schedule s h h', if_neg (by omega)]

theorem workDone_expall {s : State} (h : 16 ≤ s.sc.val) : WorkDone s (expandRest s) [] := by
  have hsc := expandRest_sc s h
  exact .of_expansion h (expandRest_frame s h) (by omega) (expandRest_keeps s h) (fun hs => scheduleOk_expandRest hs h)

theorem workDone_rnd1 {s : State} (hdue : s.rc.val < 64) (hword : s.rc.val < s.sc.val) : WorkDone s (roundStep s) [] := by
  have hrc := roundStep_rc s hdue
  exact .of_rounds_frame (roundStep_frame s) (by omega) (fun hs => roundsOk_roundStep hs hdue)

theorem workDone_rndall {s : State} (hfull : s.sc.val = 64) : WorkDone s (roundsRest s) [] := by
  have hrc := roundsRest_rc s
  exact .of_rounds_frame (roundsRest_frame s) (by omega) roundsOk_roundsRest

/-- The commands a host may issue between the pushes of a block. -/
def workCommands : List Instr := [.exp1, .expall, .rnd1, .rndall]

theorem workDone_exec {i : Instr} (hi : i ∈ workCommands) {s t : State} (h : exec i s = .next t) : WorkDone s t [] := by
  rcases exec_cases h with ⟨c, -, rfl⟩ | ⟨henabled, rfl⟩
  · exact WorkDone.of_error c s []
  · simp only [workCommands, List.mem_cons, List.not_mem_nil, or_false] at hi
    rcases hi with rfl | rfl | rfl | rfl
    · exact workDone_exp1 (exp1_enabled henabled).1 (exp1_enabled henabled).2
    · exact workDone_expall (expall_enabled henabled)
    · obtain ⟨-, hdue, hword⟩ := rnd1_enabled henabled
      exact workDone_rnd1 hdue hword
    · exact workDone_rndall (rndall_enabled henabled).2

/-! ### The work of a block on the bus -/

/-- An event of a block's work: the push of a word, or an expansion or a round. -/
def IsWork (e : HostEvent) : Prop := (∃ v, e = pushw v) ∨ ∃ i ∈ workCommands, e = command i

theorem workCommands_wf : ∀ i ∈ workCommands, i.wf = true := by decide

theorem isWork_iff (e : HostEvent) :
    IsWork e ↔ (∃ v, e = pushw v) ∨ e ∈ [command .exp1, command .expall, command .rnd1, command .rndall] := by
  simp [IsWork, workCommands]

theorem pushedWord_pushw (v : Word) : pushedWord (pushw v) = some v := rfl

theorem pushedWord_command (i : Instr) : pushedWord (command i) = none := rfl

theorem step_pushw {s : State} {v : Word} {rest : List HostEvent} (hbus : s.bus = pushw v :: rest) :
    step s = msgIn v (s.onBus rest none) := by
  rw [step_of_bus hbus]
  rfl

theorem step_work {s : State} {e : HostEvent} {rest : List HostEvent} (he : IsWork e) (hbus : s.bus = e :: rest) :
    ∃ t, step s = .next t ∧ t.bus = rest ∧ WorkDone s t (pushedWord e).toList := by
  rcases he with ⟨v, rfl⟩ | ⟨i, hi, rfl⟩
  · obtain ⟨t, ht, htbus⟩ := msgIn_next v (s.onBus rest none)
    exact ⟨t, (step_pushw hbus).trans ht, htbus, (workDone_msgIn ht).of_onBus (b' := t.bus) (d' := t.rdata)⟩
  · obtain ⟨t, hexec⟩ : ∃ t, exec i s = .next t := ⟨_, exec_eq i s⟩
    refine ⟨_, step_command hbus (decode_encode i (workCommands_wf i hi)) hexec, rfl, ?_⟩
    rw [pushedWord_command]
    exact WorkDone.of_onBus (b := s.bus) (d := s.rdata) (workDone_exec hi hexec)

/-- A run of a block's work pushes its words in order and keeps the block in work, unless an error is recorded. -/
theorem run_work (rest : List HostEvent) (work : List HostEvent) :
    ∀ s : State, (∀ e ∈ work, IsWork e) → s.bus = work ++ rest →
    ∃ t, core.run work.length s = .next t ∧ t.bus = rest ∧ WorkDone s t (work.filterMap pushedWord) := by
  induction work with
  | nil => exact fun s _ hbus => ⟨s, run_zero s, hbus, .refl s⟩
  | cons e work ih =>
    intro s hwork hbus
    obtain ⟨u, hstep, hubus, hfirst⟩ := step_work (hwork e (by simp)) hbus
    obtain ⟨t, hrun, htbus, hothers⟩ := ih u (fun e' he' => hwork e' (by simp [he'])) hubus
    refine ⟨t, (run_succ _ hstep).trans hrun, htbus, ?_⟩
    have hpushed : (e :: work).filterMap pushedWord = (pushedWord e).toList ++ work.filterMap pushedWord := by
      cases he : pushedWord e <;> simp [he]
    rw [hpushed]
    exact hfirst.trans hothers

/-! ### The end of the block (R152, R153) -/

/-- At the start of a block no word is pushed, and the counters have nothing to vouch for. -/
theorem working_of_start {s : State} (hhv : s.hv = true) (hsc : s.sc = 0) (hrc : s.rc = 0) : s.Working s.h ∧ s.pushed = [] := by
  have hsc0 : s.sc.val = 0 := by rw [hsc]; rfl
  have hrc0 : s.rc.val = 0 := by rw [hrc]; rfl
  refine ⟨⟨rfl, hhv, by omega, scheduleOk_of_short (by omega), roundsOk_of_zero hrc0⟩, ?_⟩
  rw [State.pushed, hsc0]
  rfl

/-- 16 words pushed are the block words of the schedule. -/
theorem blockWords_of_pushed {s : State} {b : Vector Word 16} (h : s.pushed = b.toList) : 16 ≤ s.sc.val ∧ s.blockWords = b := by
  have hlength := congrArg List.length h
  simp only [State.pushed, List.length_map, List.length_range, Vector.length_toList] at hlength
  refine ⟨by omega, Vector.ext fun i hi => ?_⟩
  have hword := congrArg (·[i]?) h
  simpa [State.pushed, hlength, hi, State.schedule_eq s (show i < 64 by omega), State.blockWords] using hword

/-- Where the block's work is all there, ACCUM and BLOCK leave the compression function in H, or an error. -/
theorem exec_last {s t : State} {last : Instr} {b : Vector Word 16} {h : Vector Word 8} (hlast : last = .accum ∨ last = .block)
    (hexec : exec last s = .next t) (hs : s.Working h) (hpushed : s.pushed = b.toList) (hclean : t.Clean) :
    t.h = Sha256.compress b h ∧ t.hv = true ∧ t.sc = 0 ∧ t.rc = 0 := by
  obtain ⟨hfull, hwords⟩ := blockWords_of_pushed hpushed
  obtain ⟨hash, hhv, hle, hschedule, hrounds⟩ := hs
  rcases exec_cases hexec with ⟨c, -, rfl⟩ | ⟨henabled, rfl⟩
  · exact absurd hclean (not_clean_recordError c s)
  · rw [← hwords, ← hash]
    rcases hlast with rfl | rfl
    · have hrc := accum_enabled henabled
      exact ⟨accumulateStep_compress hschedule hrounds (by omega) hrc, hhv, rfl, rfl⟩
    · refine ⟨blockWork_compress hle hschedule hrounds hfull, ?_, rfl, rfl⟩
      show (accumulateStep (roundsRest (expandRest s))).hv = true
      rw [accumulatedBlock_frame hfull]
      exact hhv

/-- ACCUM and BLOCK clear no error. -/
theorem clean_of_last {s t : State} {last : Instr} (hlast : last = .accum ∨ last = .block) (hexec : exec last s = .next t)
    (hclean : t.Clean) : s.Clean := by
  have hne : last ≠ .srst := by rcases hlast with rfl | rfl <;> decide
  exact eq_false_of_ne_true fun herr => absurd (exec_err_stays hexec hne herr) (ne_true_of_eq_false hclean)

/-- Settles O50, by induction over the events of the block's work: without an error they leave the block in work with its 16 words
pushed, and then its last command is the compression function. -/
theorem everyInterleavingGivesTheSameHash : Obligations.EveryInterleavingGivesTheSameHash := by
  unfold Obligations.EveryInterleavingGivesTheSameHash
  intro s b work last rest hhv hsc hrc _ hwork hwords hlast hbus
  obtain ⟨hstart, hnone⟩ := working_of_start hhv hsc hrc
  obtain ⟨u, hrun, hubus, hdone⟩ := run_work _ work s (fun e he => (isWork_iff e).mpr (hwork e he)) hbus
  obtain ⟨t, hexec⟩ : ∃ t, exec last u = .next t := ⟨_, exec_eq last u⟩
  have hwf : last.wf = true := by rcases hlast with rfl | rfl <;> rfl
  have hstep := step_command hubus (decode_encode last hwf) hexec
  refine ⟨_, (run_add work.length 1 hrun).trans (run_succ 0 hstep), rfl, fun hclean => ?_⟩
  replace hclean : t.Clean := hclean
  obtain ⟨-, hkept⟩ := hdone (clean_of_last hlast hexec hclean)
  obtain ⟨hworking, hpushed⟩ := hkept s.h hstart
  rw [hnone, List.nil_append, hwords] at hpushed
  have hend := exec_last hlast hexec hworking hpushed hclean
  exact hend

end Sys2Proof.Machine

/-! # Proofs of the family 60_exceptions.md: recording an error, its causes, and the end of the report -/

namespace Sys2Proof.Machine

/-! ### RecordError and the end of the report (R182, R187) -/

/-- Settles O16: the two cases of ERR are the two laws of `recordError`, and raising is recording by definition (R8). -/
theorem recordErrorKeepsFirstCode : Obligations.RecordErrorKeepsFirstCode := by
  unfold Obligations.RecordErrorKeepsFirstCode
  intro c s
  exact ⟨recordError_of_clear c s, recordError_of_err c s, rfl⟩

/-- R182: while ERR = 1 a further error is absorbed. -/
theorem raiseError_of_err (c : ECode) {s : State} (h : s.err = true) : raiseError c s = .next s :=
  congrArg Host.Outcome.next (recordError_of_err c s h)

/-- R34, R187: bit 2 of the value written to STATUS ends the report. -/
theorem memWrite_status_clears {v : Word} (h : v.getLsbD 2 = true) (s : State) : memWrite 0x004 v s = .next (clearError s) := by
  rw [memWrite_status, writeStatus, if_pos h]

/-- Settles O18: the state each of the three ends answers is known in full. -/
theorem errorReportEnds : Obligations.ErrorReportEnds := by
  unfold Obligations.ErrorReportEnds
  intro s
  refine ⟨fun v hbit => ?status, ?srst, fun draw => ⟨rfl, rfl⟩, fun herr c => raiseError_of_err c herr⟩
  case status => exact ⟨clearError s, memWrite_status_clears hbit s, rfl, rfl, rfl⟩
  case srst => exact ⟨_, exec_srst s, rfl, rfl⟩

/-! ### What a command can do to ERR (R180, R183) -/

/-- Settles O19: a command's next state is its error recorded or its effect. -/
theorem everyCommandCompletes : Obligations.EveryCommandCompletes := by
  unfold Obligations.EveryCommandCompletes
  intro i s
  exact ⟨_, exec_eq i s⟩

/-- A command that passes its checks records no error. -/
theorem effectOf_err_clear {i : Instr} {s : State} (henabled : errorOf i s = none) (hclear : s.err = false) :
    (effectOf i s).err = false := by
  cases i with
  | srst => rfl
  | exp1 => exact (congrArg State.err (expandStep_frame s)).trans hclear
  | expall => exact (congrArg State.err (expandRest_frame s (expall_enabled henabled))).trans hclear
  | rnd1 => exact (congrArg State.err (roundStep_frame s)).trans hclear
  | rndall => exact (congrArg State.err (roundsRest_frame s)).trans hclear
  | block =>
    obtain ⟨-, hfull⟩ := block_enabled henabled
    exact (congrArg State.err (accumulatedBlock_frame hfull)).trans hclear
  | _ => exact hclear

/-- So an error a command leaves is the one its checks found, with ERR and ECODE alone written. -/
theorem exec_records {i : Instr} {s t : State} (hclear : s.err = false) (hexec : exec i s = .next t) (herr : t.err = true) :
    ∃ c, errorOf i s = some c ∧ t = { s with err := true, ecode := c } := by
  rcases exec_cases hexec with ⟨c, herror, rfl⟩ | ⟨henabled, rfl⟩
  · exact ⟨c, herror, recordError_of_clear c s hclear⟩
  · exact absurd herr (ne_true_of_eq_false (effectOf_err_clear henabled hclear))

/-! ### The causes of each code (R181, R184) -/

/-- The code a command with one check records. -/
theorem code_of_check {p : Prop} [Decidable p] {a c : ECode} (h : (if p then some a else none) = some c) : c = a ∧ p := by
  obtain ⟨hp, hcode⟩ := Option.ite_none_right_eq_some.mp h
  exact ⟨(Option.some.inj hcode).symm, hp⟩

/-- The code a command with two checks records. -/
theorem code_of_two_checks {p q : Prop} [Decidable p] [Decidable q] {a b c : ECode}
    (h : (if p then some a else if q then some b else none) = some c) : (c = a ∧ p) ∨ (c = b ∧ q) := by
  split at h
  next hp => exact .inl ⟨(Option.some.inj h).symm, hp⟩
  next => exact .inr (code_of_check h)

/-- The code a command's checks find is one its rule lists, and the state meets the condition listed with it. -/
theorem errorOf_cause {i : Instr} {s : State} {c : ECode} (h : errorOf i s = some c) :
    (c = .notInit ∧ s.hv = false ∧ (i = .encode ∨ (s.rc.val = 0 ∧ (i = .rnd1 ∨ i = .rndall ∨ i = .block)))) ∨
    (c = .seqSched ∧ ((s.sc.val < 16 ∧ (i = .exp1 ∨ i = .expall ∨ i = .block)) ∨ (s.sc.val = 64 ∧ i = .exp1))) ∨
    (c = .seqRound ∧ ((i = .rnd1 ∧ (s.rc.val = 64 ∨ s.sc.val ≤ s.rc.val)) ∨ (i = .rndall ∧ s.sc.val < 64))) ∨
    (c = .seqAccum ∧ i = .accum ∧ s.rc.val ≠ 64) := by
  cases i with
  | exp1 =>
    obtain ⟨rfl, hcount⟩ := code_of_check h
    simpa using hcount
  | expall =>
    obtain ⟨rfl, hshort⟩ := code_of_check h
    simpa using hshort
  | rnd1 =>
    rcases code_of_two_checks h with ⟨rfl, hrc, hhv⟩ | ⟨rfl, hround⟩
    · simp [hhv, hrc]
    · simpa using hround
  | rndall =>
    rcases code_of_two_checks h with ⟨rfl, hrc, hhv⟩ | ⟨rfl, hshort⟩
    · simp [hhv, hrc]
    · simpa using hshort
  | accum =>
    obtain ⟨rfl, hrounds⟩ := code_of_check h
    simpa using hrounds
  | block =>
    rcases code_of_two_checks h with ⟨rfl, hrc, hhv⟩ | ⟨rfl, hshort⟩
    · simp [hhv, hrc]
    · simpa using hshort
  | encode =>
    obtain ⟨rfl, hhv⟩ := code_of_check h
    simpa using hhv
  | _ => cases h

/-- Settles O20: the error left is the one the command's checks found (`exec_records`), for a cause its rule lists (`errorOf_cause`). -/
theorem errorsArePrecise : Obligations.ErrorsArePrecise := by
  unfold Obligations.ErrorsArePrecise
  intro i s t hclear hexec herr
  obtain ⟨c, herror, hstate⟩ := exec_records hclear hexec herr
  exact ⟨c, hstate, errorOf_cause herror⟩

end Sys2Proof.Machine

/-! # Proofs of the family 70_reset_and_hazards.md, and of the statements left of the other families -/

namespace Sys2Proof

/-! ### A word and the command it spells (30_encoding.md §1 to §3) -/

/-- The word of an ill-formed term fails the check of R81. -/
theorem decode_encode_ill_formed {i : Instr} (h : i.wf = false) : decode (encode i) = .error .badField :=
  (Laws.RoundTrip.of_wf i).trans (if_neg (ne_true_of_eq_false h))

/-- A word that decodes is the word of the command it decodes to, its three fields being that command's. -/
theorem encode_of_decode {v : Word} {i : Instr} (h : decode v = .ok i) : encode i = v ∧ i.wf = true := by
  obtain ⟨hopc, hrsv, himm, hwf⟩ := (decode_ok_iff v i).mp h
  refine ⟨word_eq_of_fields ?_ ?_ ?_, hwf⟩
  · rw [opcField_encode, hopc]
  · rw [rsvField_encode, hrsv]
  · rw [immField_encode, himm]

/-- Settles O12: one direction is `decode_encode` and its counterpart for ill-formed terms, the other `encode_of_decode`. -/
theorem decodeEncodeAgree : Obligations.DecodeEncodeAgree := by
  unfold Obligations.DecodeEncodeAgree
  exact ⟨fun i => ⟨decode_encode i, decode_encode_ill_formed⟩, fun _ _ h => encode_of_decode h⟩

/-- A well-formed command is spelled by its own word and by no other. -/
theorem decode_iff_eq_encode {i : Instr} (hwf : i.wf = true) (v : Word) : decode v = .ok i ↔ v = encode i := by
  constructor
  · intro h
    obtain ⟨hword, -⟩ := encode_of_decode h
    exact hword.symm
  · rintro rfl
    exact decode_encode i hwf

/-! ### The masks of the opcode table (R83) -/

/-- IMM[7:5] is what the mask of ROTR and SHR keeps of IMM. -/
theorem immediate_mask : ∀ imm : BitVec 8, imm &&& 0xE0#8 = 0#8 ↔ imm.extractLsb' 5 3 = 0#3 := by decide

/-- The mask of ROTR and SHR keeps OPC, RSV and IMM[7:5]. -/
theorem amountMask_fields (v : Word) :
    opcField (v &&& 0xFFFFFFE0#32) = opcField v ∧ rsvField (v &&& 0xFFFFFFE0#32) = rsvField v ∧
    immField (v &&& 0xFFFFFFE0#32) = immField v &&& 0xE0#8 := by
  refine ⟨?_, ?_, ?_⟩
  · rw [opcField, BitVec.extractLsb'_and]
    exact BitVec.and_allOnes
  · rw [rsvField, BitVec.extractLsb'_and]
    exact BitVec.and_allOnes
  · rw [immField, BitVec.extractLsb'_and]
    rfl

/-- A command whose IMM is an amount is spelled, for some amount, by the words that meet its match under that mask. -/
theorem decode_amount_iff {cmd : BitVec 8 → Instr} (hcmd : cmd = .rotr ∨ cmd = .shr) (v : Word) :
    (∃ imm, decode v = .ok (cmd imm)) ↔ v &&& 0xFFFFFFE0#32 = encode (cmd 0) := by
  have himm (imm : BitVec 8) : immediateOf (cmd imm) = imm := by rcases hcmd with rfl | rfl <;> rfl
  have hopc (imm : BitVec 8) : opcodeOf (cmd imm) = opcodeOf (cmd 0) := by rcases hcmd with rfl | rfl <;> rfl
  have hwf (imm : BitVec 8) : (cmd imm).wf = true ↔ imm.extractLsb' 5 3 = 0#3 := by
    rcases hcmd with rfl | rfl <;> exact beq_iff_eq
  obtain ⟨maskOpc, maskRsv, maskImm⟩ := amountMask_fields v
  constructor
  · rintro ⟨imm, hdecode⟩
    obtain ⟨hvopc, hvrsv, hvimm, hvwf⟩ := (decode_ok_iff v _).mp hdecode
    rw [himm] at hvimm
    refine word_eq_of_fields ?_ ?_ ?_
    · rw [maskOpc, opcField_encode, hvopc, hopc]
    · rw [maskRsv, rsvField_encode, hvrsv]
    · rw [maskImm, immField_encode, himm, hvimm]
      exact (immediate_mask imm).mpr ((hwf imm).mp hvwf)
  · intro hmask
    rw [hmask, opcField_encode] at maskOpc
    rw [hmask, rsvField_encode] at maskRsv
    rw [hmask, immField_encode, himm] at maskImm
    exact ⟨immField v, (decode_ok_iff v _).mpr
      ⟨maskOpc.symm.trans (hopc _).symm, maskRsv.symm, (himm _).symm, (hwf _).mpr ((immediate_mask _).mp maskImm.symm)⟩⟩

/-- The amount of a word that decodes to ROTR or SHR is its low five bits (R81). -/
theorem amount_of_decode {v : Word} {imm : BitVec 8} (h : decode v = .ok (.rotr imm) ∨ decode v = .ok (.shr imm)) :
    imm.toNat = v.toNat % 32 := by
  have hfield : immField v = imm ∧ imm.extractLsb' 5 3 = 0#3 := by
    rcases h with h | h <;> obtain ⟨-, -, himm, hwf⟩ := (decode_ok_iff v _).mp h <;> exact ⟨himm, beq_iff_eq.mp hwf⟩
  obtain ⟨rfl, hhigh⟩ := hfield
  rw [← Machine.amount_eq hhigh]
  simp [Machine.amount, immField]

/-- The match of each command without an immediate, as R83's table writes it. -/
def plainRows : List (Instr × Word) :=
  [(.nop, 0x00000000), (.srst, 0x01000000), (.init, 0x02000000), (.ch, 0x12000000), (.maj, 0x13000000), (.bsig0, 0x14000000),
    (.bsig1, 0x15000000), (.ssig0, 0x16000000), (.ssig1, 0x17000000), (.add, 0x18000000), (.exp1, 0x20000000),
    (.expall, 0x21000000), (.rnd1, 0x30000000), (.rndall, 0x31000000), (.accum, 0x32000000), (.block, 0x33000000),
    (.encode, 0x40000000)]

/-- Each row is a well-formed command with its word. -/
theorem plainRows_spell : ∀ row ∈ plainRows, row.1.wf = true ∧ encode row.1 = row.2 := by decide

/-- Settles O13: a command without an immediate has one word, which is its row's match; ROTR and SHR are `decode_amount_iff`. -/
theorem wordSpellsItsMnemonic : Obligations.WordSpellsItsMnemonic := by
  unfold Obligations.WordSpellsItsMnemonic
  intro v
  refine ⟨fun i m hrow => ?_, decode_amount_iff (.inl rfl) v, decode_amount_iff (.inr rfl) v, fun imm => amount_of_decode⟩
  have hmask : v &&& 0xFFFFFFFF#32 = v := BitVec.and_allOnes
  obtain ⟨hwf, rfl⟩ : i.wf = true ∧ encode i = m := plainRows_spell (i, m) hrow
  rw [hmask]
  exact decode_iff_eq_encode hwf v

/-- Settles O11: each word is written out, so decoding it is evaluation. -/
theorem tableWordsDecode : Obligations.TableWordsDecode := by
  unfold Obligations.TableWordsDecode
  exact ⟨rfl, rfl, rfl, rfl, rfl, rfl, rfl, rfl, rfl, rfl, rfl⟩

end Sys2Proof

namespace Sys2Proof.Machine

/-! ### The invariant of every step (10_state.md §11, R36) -/

/-- What R36 speaks of is RC, SC, HV and the error report. -/
theorem inv_congr {s t : State} (hs : s.Inv) (hrc : t.rc = s.rc) (hsc : t.sc = s.sc) (hhv : t.hv = s.hv) (herr : t.err = s.err)
    (hecode : t.ecode = s.ecode) : t.Inv := by
  refine ⟨?_, ?_, ?_⟩
  · rw [hrc, hsc]
    exact hs.rc_le_sc
  · rw [hrc, hhv]
    exact hs.hv_of_rc
  · rw [herr, hecode]
    exact hs.code_iff_err

/-- With RC = 0 only the error report is left to check. -/
theorem inv_of_rc_zero {t : State} (hrc : t.rc.val = 0) (hreport : t.ecode ≠ .none ↔ t.err = true) : t.Inv :=
  ⟨by omega, fun hpos => absurd hpos (by omega), hreport⟩

/-- No error recorded and ECODE = 0. -/
theorem report_of_clear {t : State} (herr : t.err = false) (hecode : t.ecode = .none) : t.ecode ≠ .none ↔ t.err = true := by
  simp [herr, hecode]

theorem inv_resetWith (draw : Config.ResetReg → Word) : (State.resetWith draw).Inv :=
  inv_of_rc_zero rfl (report_of_clear rfl rfl)

theorem inv_clearError {s : State} (hs : s.Inv) : (clearError s).Inv :=
  ⟨hs.rc_le_sc, hs.hv_of_rc, report_of_clear rfl rfl⟩

theorem inv_setResult {s : State} (v : Word) (hs : s.Inv) : (setResult v s).Inv :=
  inv_congr hs (setResult_rc v s) (setResult_sc v s) (setResult_hv v s) (setResult_err v s) (setResult_ecode v s)

/-- A push only raises SC (R130). -/
theorem inv_push {v : Word} {s t : State} (hsc : s.sc.val < 16) (h : msgIn v s = .next t) (hs : s.Inv) : t.Inv := by
  obtain ⟨hframe, hcount, -⟩ := push_next hsc h
  have hrc : t.rc = s.rc := by rw [hframe]
  have hle := hs.rc_le_sc
  refine ⟨by rw [hrc]; omega, ?_, ?_⟩
  · rw [hframe]
    exact hs.hv_of_rc
  · rw [hframe]
    exact hs.code_iff_err

theorem inv_accumulatedBlock {s : State} (h : 16 ≤ s.sc.val) (hs : s.Inv) : (accumulateStep (roundsRest (expandRest s))).Inv := by
  refine inv_of_rc_zero rfl ?_
  rw [accumulatedBlock_frame h]
  exact hs.code_iff_err

theorem inv_effectOf {i : Instr} {s : State} (henabled : errorOf i s = none) (hs : s.Inv) : (effectOf i s).Inv := by
  cases i with
  | srst => exact inv_of_rc_zero rfl (report_of_clear rfl rfl)
  | init | accum => exact inv_of_rc_zero rfl hs.code_iff_err
  | block =>
    obtain ⟨-, hfull⟩ := block_enabled henabled
    exact inv_accumulatedBlock hfull hs
  | exp1 => exact inv_expandStep hs
  | expall => exact inv_expandRest hs (expall_enabled henabled)
  | rnd1 =>
    obtain ⟨hhv, -, hword⟩ := rnd1_enabled henabled
    exact inv_roundStep hs hhv hword
  | rndall =>
    obtain ⟨hhv, hfull⟩ := rndall_enabled henabled
    exact inv_roundsRest hs hhv hfull
  | nop => exact hs
  | encode => exact inv_congr (t := { s with dg := digestWords s.h, dv := true }) hs rfl rfl rfl rfl rfl
  | rotr | shr | ch | maj | bsig0 | bsig1 | ssig0 | ssig1 | add => exact inv_setResult _ hs

theorem errorOf_ne_none {i : Instr} {s : State} {c : ECode} (h : errorOf i s = some c) : c ≠ .none := by
  rcases errorOf_cause h with ⟨rfl, -⟩ | ⟨rfl, -⟩ | ⟨rfl, -⟩ | ⟨rfl, -⟩ <;> decide

theorem inv_exec {i : Instr} {s t : State} (h : exec i s = .next t) (hs : s.Inv) : t.Inv := by
  rcases exec_cases h with ⟨c, herror, rfl⟩ | ⟨henabled, rfl⟩
  · exact inv_recordError hs (errorOf_ne_none herror)
  · exact inv_effectOf henabled hs

theorem inv_step {s t : State} (h : step s = .next t) (hs : s.Inv) : t.Inv := by
  have hbus (b : List HostEvent) (d : Option Word) : (s.onBus b d).Inv := inv_congr hs rfl rfl rfl rfl rfl
  cases step_cases h with
  | idle h => exact h ▸ hs
  | unchanged b d h => exact h ▸ hbus b d
  | command i b h => exact inv_exec h (hbus b none)
  | error c b hc h => exact h ▸ inv_recordError (hbus b none) hc
  | clear b h => exact h ▸ inv_clearError (hbus b none)
  | operand x y z b h => subst h; exact inv_congr hs rfl rfl rfl rfl rfl
  | push v b hsc h => exact inv_push (s := s.onBus b none) hsc h (hbus b none)
  | reset b h => subst h; exact inv_of_rc_zero rfl (report_of_clear rfl rfl)

/-- Settles O42, from `inv_step` and `inv_resetWith`. -/
theorem invariantKept : Obligations.InvariantKept := by
  unfold Obligations.InvariantKept
  exact ⟨fun _ _ hs hstep => inv_step hstep hs, inv_resetWith⟩

/-! ### The hardware reset (10_state.md §12, 70_reset_and_hazards.md §1) -/

/-- Settles O45: with SC = RC = 0 and DV = 0 the counters and the digest buffer have nothing to vouch for. -/
theorem goodAtReset : Obligations.GoodAtReset := by
  unfold Obligations.GoodAtReset
  intro draw
  exact ⟨inv_resetWith draw, scheduleOk_of_short (Nat.zero_le 16), roundsOk_of_zero rfl, fun hvalid => nomatch hvalid⟩

theorem step_reset {s : State} {rest : List HostEvent} (hbus : s.bus = .reset :: rest) :
    step s = .next (hardReset { s with bus := rest }) := by
  rw [step_of_bus hbus, perform]

theorem statusWord_resetWith (draw : Config.ResetReg → Word) : statusWord (State.resetWith draw) = 0 := by
  simp [statusWord, State.resetWith, flagWord, ecodeBits]

/-- Settles O2: the step answers `hardReset`, whose registers are those of R38 (`resetValues`) at the next draw. -/
theorem hardwareResetDrawsAnew : Obligations.HardwareResetDrawsAnew := by
  unfold Obligations.HardwareResetDrawsAnew
  intro s rest hbus
  obtain ⟨hvalues, -, -⟩ := resetValues
  obtain ⟨hx, hy, hz, hr, hw, hh, hwv, hdg, hsc, hrc, -, -, -, hecode⟩ := hvalues (Config.resetDraw (s.resets + 1))
  exact ⟨_, step_reset hbus, statusWord_resetWith (Config.resetDraw (s.resets + 1)), hsc, hrc, hecode, rfl, hx, hy, hz, hr, hw,
    fun i => ⟨hh i, hwv i⟩, hdg, rfl⟩

/-! ### The numbers of the error codes (60_exceptions.md §1) -/

/-- Settles O17, from `ecodeBits_inj`. -/
theorem errorCodesNumbered : Obligations.ErrorCodesNumbered := by
  unfold Obligations.ErrorCodesNumbered
  exact ⟨rfl, ecodeBits_inj⟩

/-! ### What an ALU command reads and writes (41_word_alu.md) -/

/-- The nine ALU commands. -/
def IsAlu (i : Instr) : Prop :=
  (∃ imm, i = .rotr imm ∨ i = .shr imm) ∨ i ∈ [.ch, .maj, .bsig0, .bsig1, .ssig0, .ssig1, .add]

/-- An ALU command writes R with a function of X, Y and Z. -/
theorem exec_alu {i : Instr} (hi : IsAlu i) :
    ∃ f : Word → Word → Word → Word, ∀ s, exec i s = .next (setResult (f s.x s.y s.z) s) := by
  rcases hi with ⟨imm, rfl | rfl⟩ | hi
  · exact ⟨fun x _ _ => rotr x (amount imm), exec_rotr imm⟩
  · exact ⟨fun x _ _ => shr x (amount imm), exec_shr imm⟩
  · simp only [List.mem_cons, List.not_mem_nil, or_false] at hi
    rcases hi with rfl | rfl | rfl | rfl | rfl | rfl | rfl
    · exact ⟨ch, exec_ch⟩
    · exact ⟨maj, exec_maj⟩
    · exact ⟨fun x _ _ => bsig0 x, exec_bsig0⟩
    · exact ⟨fun x _ _ => bsig1 x, exec_bsig1⟩
    · exact ⟨fun x _ _ => ssig0 x, exec_ssig0⟩
    · exact ⟨fun x _ _ => ssig1 x, exec_ssig1⟩
    · exact ⟨fun x y _ => x + y, exec_add⟩

/-- R's offset is the only one where an ALU result is seen. -/
theorem memRead_setResult (v : Word) (s : State) {off : Nat} (h : off ≠ 0x01C) : memRead off (setResult v s) = memRead off s :=
  memRead_congr (s := s) (t := setResult v s) rfl rfl rfl rfl off (fun _ => rfl) (fun _ => rfl) (fun _ => rfl) (fun _ => rfl)
    fun e => absurd e h

/-- Settles O29: equal operands give the function of `exec_alu` equal results, and `setResult` shows at R's offset only. -/
theorem aluReadsOperandsWritesResult : Obligations.AluReadsOperandsWritesResult := by
  unfold Obligations.AluReadsOperandsWritesResult
  intro i s s' hi hx hy hz
  obtain ⟨f, hexec⟩ := exec_alu hi
  refine ⟨_, _, hexec s, hexec s', ?_, fun _ => memRead_setResult _ s⟩
  rw [setResult_r, setResult_r, hx, hy, hz]

/-! ### A run of EXP1 commands (42_schedule.md, R132, R133) -/

/-- With `n + 1` words missing, as many EXP1 commands do what the loop of EXPALL does. -/
theorem run_exp1s (rest : List HostEvent) (n : Nat) :
    ∀ (s : State) (d : Option Word), 16 ≤ s.sc.val → s.sc.val + (n + 1) = 64 →
    core.run (n + 1) (s.onBus (List.replicate (n + 1) (cmdWrite 0x20000000) ++ rest) d) =
      .next ((expandRest s).onBus rest none) := by
  induction n with
  | zero =>
    intro s d h hmissing
    rw [expandRest_next s h (by omega), expandRest_done _ (by rw [expandStep_sc s h (by omega), hmissing])]
    exact run_command 0 rfl (exec_exp1 h (by omega)) rest d
  | succ n ih =>
    intro s d h hmissing
    have hsc := expandStep_sc s h (by omega)
    rw [expandRest_next s h (by omega), ← ih (expandStep s) none (by omega) (by omega)]
    exact run_command (n + 1) rfl (exec_exp1 h (by omega)) (List.replicate (n + 1) (cmdWrite 0x20000000) ++ rest) d

/-- Settles O33, from `run_exp1s`; EXPALL does not depend on the bus (`exec_onBus`). -/
theorem exp1sMakeExpall : Obligations.Exp1sMakeExpall := by
  unfold Obligations.Exp1sMakeExpall
  intro s rest h h' hbus
  obtain ⟨n, hn⟩ : ∃ n, 64 - s.sc.val = n + 1 := ⟨63 - s.sc.val, by omega⟩
  have hrun := run_exp1s rest n s s.rdata h (by omega)
  rw [← hn, ← hbus, onBus_self] at hrun
  exact ⟨_, hrun, exec_onBus (exec_expall h) rest none⟩

/-! ### Which registers a command writes (10_state.md §3 to §7) -/

/-- The kinds of commands by the registers they write. -/
inductive WriteCase (i : Instr) (s t : State) : Prop
  /-- NOP, or the error of any command's checks. -/
  | report (ht : t = { s with err := t.err, ecode := t.ecode })
  | control (hi : i = .srst) (ht : t = { s with sc := 0, rc := 0, hv := false, dv := false, err := false, ecode := .none })
  | initial (hi : i = .init) (ht : t = { s with h := H_INITIAL, hv := true, sc := 0, rc := 0 })
  | alu (hi : IsAlu i) (ht : t = { s with r := t.r })
  | expansion (hi : i = .exp1 ∨ i = .expall) (ht : t = { s with w := t.w, sc := t.sc })
      (keeps : ∀ j < 16, t.schedule j = s.schedule j)
  | rounds (hi : i = .rnd1 ∨ i = .rndall) (ht : t = { s with wv := t.wv, rc := t.rc })
  | accumulation (hi : i = .accum) (ht : t = { s with h := t.h, rc := 0, sc := 0 })
  | block (hi : i = .block) (ht : t = { s with w := t.w, wv := t.wv, h := t.h, sc := 0, rc := 0 })
      (keeps : ∀ j < 16, t.schedule j = s.schedule j)
  | digest (hi : i = .encode) (ht : t = { s with dg := t.dg, dv := true })

/-- The word EXP1 writes is none of the block's. -/
theorem expandStep_keeps_block {s : State} (h : 16 ≤ s.sc.val) (h' : s.sc.val < 64) :
    ∀ j < 16, (expandStep s).schedule j = s.schedule j := by
  intro j hj
  rw [expandStep_schedule s h h', if_neg (by omega)]

theorem expandRest_keeps_block {s : State} (h : 16 ≤ s.sc.val) : ∀ j < 16, (expandRest s).schedule j = s.schedule j :=
  fun j hj => expandRest_keeps s h j (by omega)

/-- After its expansion BLOCK leaves the schedule as it is. -/
theorem accumulatedBlock_keeps_block {s : State} (h : 16 ≤ s.sc.val) :
    ∀ j < 16, (accumulateStep (roundsRest (expandRest s))).schedule j = s.schedule j := by
  have hw : (accumulateStep (roundsRest (expandRest s))).w = (expandRest s).w := by
    rw [accumulateStep_w, roundsRest_frame]
  exact fun j hj => (State.schedule_congr hw j).trans (expandRest_keeps_block h j hj)

theorem writeCase_alu {i : Instr} (hi : IsAlu i) {s t : State} (h : exec i s = .next t) : WriteCase i s t := by
  obtain ⟨f, hexec⟩ := exec_alu hi
  rw [hexec] at h
  cases h
  exact .alu hi rfl

theorem writeCase_effectOf {i : Instr} {s : State} (henabled : errorOf i s = none) : WriteCase i s (effectOf i s) := by
  cases i with
  | nop => exact .report rfl
  | srst => exact .control rfl rfl
  | init => exact .initial rfl rfl
  | rotr imm | shr imm => exact writeCase_alu (.inl ⟨imm, by simp⟩) (exec_effect henabled)
  | ch | maj | bsig0 | bsig1 | ssig0 | ssig1 | add => exact writeCase_alu (.inr (by simp)) (exec_effect henabled)
  | exp1 =>
    obtain ⟨h, h'⟩ := exp1_enabled henabled
    exact .expansion (.inl rfl) (expandStep_frame s) (expandStep_keeps_block h h')
  | expall =>
    have h := expall_enabled henabled
    exact .expansion (.inr rfl) (expandRest_frame s h) (expandRest_keeps_block h)
  | rnd1 => exact .rounds (.inl rfl) (roundStep_frame s)
  | rndall => exact .rounds (.inr rfl) (roundsRest_frame s)
  | accum => exact .accumulation rfl rfl
  | block =>
    obtain ⟨-, h⟩ := block_enabled henabled
    exact .block rfl (accumulatedBlock_frame h) (accumulatedBlock_keeps_block h)
  | encode => exact .digest rfl rfl

theorem writeCase_exec {i : Instr} {s t : State} (h : exec i s = .next t) : WriteCase i s t := by
  rcases exec_cases h with ⟨c, -, rfl⟩ | ⟨henabled, rfl⟩
  · exact .report rfl
  · exact writeCase_effectOf henabled

namespace WriteCase

variable {i : Instr} {s t : State}

/-- No command writes X, Y or Z, nor the model's record of the bus and of the resets. -/
theorem host_fields (h : WriteCase i s t) :
    t.x = s.x ∧ t.y = s.y ∧ t.z = s.z ∧ t.bus = s.bus ∧ t.rdata = s.rdata ∧ t.resets = s.resets := by
  cases h with
  | report ht | control _ ht | initial _ ht | alu _ ht | expansion _ ht _ | rounds _ ht | accumulation _ ht | block _ ht _
  | digest _ ht =>
    exact ⟨by rw [ht], by rw [ht], by rw [ht], by rw [ht], by rw [ht], by rw [ht]⟩

theorem r_owner (h : WriteCase i s t) : t.r = s.r ∨ IsAlu i := by
  cases h with
  | alu hi _ => exact .inr hi
  | report ht | control _ ht | initial _ ht | expansion _ ht _ | rounds _ ht | accumulation _ ht | block _ ht _ | digest _ ht =>
    exact .inl (by rw [ht])

theorem w_owner (h : WriteCase i s t) : t.w = s.w ∨ i = .exp1 ∨ i = .expall ∨ i = .block := by
  cases h with
  | expansion hi _ _ => exact .inr (or_assoc.mp (.inl hi))
  | block hi _ _ => exact .inr (.inr (.inr hi))
  | report ht | control _ ht | initial _ ht | alu _ ht | rounds _ ht | accumulation _ ht | digest _ ht =>
    exact .inl (by rw [ht])

theorem keeps_block (h : WriteCase i s t) : ∀ j < 16, t.schedule j = s.schedule j := by
  cases h with
  | expansion _ _ keeps | block _ _ keeps => exact keeps
  | report ht | control _ ht | initial _ ht | alu _ ht | rounds _ ht | accumulation _ ht | digest _ ht =>
    exact fun j _ => State.schedule_congr (by rw [ht]) j

theorem wv_owner (h : WriteCase i s t) : t.wv = s.wv ∨ i = .rnd1 ∨ i = .rndall ∨ i = .block := by
  cases h with
  | rounds hi _ => exact .inr (or_assoc.mp (.inl hi))
  | block hi _ _ => exact .inr (.inr (.inr hi))
  | report ht | control _ ht | initial _ ht | alu _ ht | expansion _ ht _ | accumulation _ ht | digest _ ht =>
    exact .inl (by rw [ht])

theorem h_owner (h : WriteCase i s t) : t.h = s.h ∨ i = .init ∨ i = .accum ∨ i = .block := by
  cases h with
  | initial hi _ => exact .inr (.inl hi)
  | accumulation hi _ => exact .inr (.inr (.inl hi))
  | block hi _ _ => exact .inr (.inr (.inr hi))
  | report ht | control _ ht | alu _ ht | expansion _ ht _ | rounds _ ht | digest _ ht => exact .inl (by rw [ht])

theorem hv_owner (h : WriteCase i s t) : t.hv = s.hv ∨ (i = .init ∧ t.hv = true) ∨ (i = .srst ∧ t.hv = false) := by
  cases h with
  | initial hi ht => exact .inr (.inl ⟨hi, by rw [ht]⟩)
  | control hi ht => exact .inr (.inr ⟨hi, by rw [ht]⟩)
  | report ht | alu _ ht | expansion _ ht _ | rounds _ ht | accumulation _ ht | block _ ht _ | digest _ ht =>
    exact .inl (by rw [ht])

theorem dg_owner (h : WriteCase i s t) : t.dg = s.dg ∨ i = .encode := by
  cases h with
  | digest hi _ => exact .inr hi
  | report ht | control _ ht | initial _ ht | alu _ ht | expansion _ ht _ | rounds _ ht | accumulation _ ht | block _ ht _ =>
    exact .inl (by rw [ht])

theorem dv_owner (h : WriteCase i s t) : t.dv = s.dv ∨ (i = .encode ∧ t.dv = true) ∨ (i = .srst ∧ t.dv = false) := by
  cases h with
  | digest hi ht => exact .inr (.inl ⟨hi, by rw [ht]⟩)
  | control hi ht => exact .inr (.inr ⟨hi, by rw [ht]⟩)
  | report ht | initial _ ht | alu _ ht | expansion _ ht _ | rounds _ ht | accumulation _ ht | block _ ht _ =>
    exact .inl (by rw [ht])

end WriteCase

/-- Settles O46: each clause reads one register off the kinds of `writeCase_exec`. -/
theorem registersHaveOwners : Obligations.RegistersHaveOwners := by
  unfold Obligations.RegistersHaveOwners
  intro i s t hexec
  have h := writeCase_exec hexec
  obtain ⟨hx, hy, hz, hbus, hrdata, hresets⟩ := h.host_fields
  exact ⟨hx, hy, hz, hbus, hrdata, hresets, h.r_owner.resolve_left, h.w_owner.resolve_left, h.keeps_block,
    h.wv_owner.resolve_left, h.h_owner.resolve_left, h.hv_owner.resolve_left, h.dg_owner.resolve_left, h.dv_owner.resolve_left⟩

/-! ### The control fields do not depend on the datapath (70_reset_and_hazards.md, R201, R203) -/

namespace State.SameControl

variable {s s' t t' : State}

theorem onBus (h : s.SameControl s') (b : List HostEvent) (d d' : Option Word) : (s.onBus b d).SameControl (s'.onBus b d') :=
  ⟨h.sc, h.rc, h.hv, h.dv, h.err, h.ecode, rfl⟩

/-- The value a read returned is no control field. -/
theorem withRdata (h : s.SameControl s') (d d' : Option Word) : { s with rdata := d }.SameControl { s' with rdata := d' } :=
  ⟨h.sc, h.rc, h.hv, h.dv, h.err, h.ecode, h.bus⟩

/-- The operand registers X, Y and Z are no control fields. -/
theorem withOperands (h : s.SameControl s') (x y z x' y' z' : Word) :
    { s with x := x, y := y, z := z }.SameControl { s' with x := x', y := y', z := z' } :=
  ⟨h.sc, h.rc, h.hv, h.dv, h.err, h.ecode, h.bus⟩

/-- Two states a digest is written to, whatever its characters (R161). -/
theorem withDigest (h : s.SameControl s') (dg dg' : Vector Word 16) :
    { s with dg := dg, dv := true }.SameControl { s' with dg := dg', dv := true } :=
  ⟨h.sc, h.rc, h.hv, rfl, h.err, h.ecode, h.bus⟩

theorem recordError (h : s.SameControl s') (c : ECode) : (recordError c s).SameControl (recordError c s') :=
  ⟨h.sc, h.rc, h.hv, h.dv, rfl, by rw [recordError_ecode, recordError_ecode, h.err, h.ecode], h.bus⟩

theorem clearError (h : s.SameControl s') : (clearError s).SameControl (clearError s') :=
  ⟨h.sc, h.rc, h.hv, h.dv, rfl, rfl, h.bus⟩

theorem writeStatus (h : s.SameControl s') (v : Word) : (writeStatus v s).SameControl (writeStatus v s') := by
  unfold Machine.writeStatus
  split
  · exact h.clearError
  · exact h

theorem setResult (h : s.SameControl s') (v v' : Word) : (setResult v s).SameControl (setResult v' s') :=
  ⟨h.sc, h.rc, h.hv, h.dv, h.err, h.ecode, h.bus⟩

theorem accumulateStep (h : s.SameControl s') : (accumulateStep s).SameControl (accumulateStep s') :=
  ⟨rfl, rfl, h.hv, h.dv, h.err, h.ecode, h.bus⟩

/-- Growth of two schedules to the same count. -/
theorem of_schedule_frame (h : s.SameControl s') (ht : t = { s with w := t.w, sc := t.sc })
    (ht' : t' = { s' with w := t'.w, sc := t'.sc }) (hsc : t.sc = t'.sc) : t.SameControl t' := by
  rw [ht, ht']
  exact ⟨hsc, h.rc, h.hv, h.dv, h.err, h.ecode, h.bus⟩

/-- Rounds of two states up to the same count. -/
theorem of_rounds_frame (h : s.SameControl s') (ht : t = { s with wv := t.wv, rc := t.rc })
    (ht' : t' = { s' with wv := t'.wv, rc := t'.rc }) (hrc : t.rc = t'.rc) : t.SameControl t' := by
  rw [ht, ht']
  exact ⟨h.sc, hrc, h.hv, h.dv, h.err, h.ecode, h.bus⟩

theorem expandStep (h : s.SameControl s') (hlo : 16 ≤ s.sc.val) (hhi : s.sc.val < 64) :
    (expandStep s).SameControl (expandStep s') := by
  refine h.of_schedule_frame (expandStep_frame s) (expandStep_frame s') (Fin.ext ?_)
  rw [expandStep_sc s hlo hhi, expandStep_sc s' (h.sc ▸ hlo) (h.sc ▸ hhi), h.sc]

theorem expandRest (h : s.SameControl s') (hlo : 16 ≤ s.sc.val) : (expandRest s).SameControl (expandRest s') := by
  have hlo' : 16 ≤ s'.sc.val := h.sc ▸ hlo
  refine h.of_schedule_frame (expandRest_frame s hlo) (expandRest_frame s' hlo') (Fin.ext ?_)
  rw [expandRest_sc s hlo, expandRest_sc s' hlo']

theorem roundStep (h : s.SameControl s') (hdue : s.rc.val < 64) : (roundStep s).SameControl (roundStep s') := by
  refine h.of_rounds_frame (roundStep_frame s) (roundStep_frame s') (Fin.ext ?_)
  rw [roundStep_rc s hdue, roundStep_rc s' (h.rc ▸ hdue), h.rc]

theorem roundsRest (h : s.SameControl s') : (roundsRest s).SameControl (roundsRest s') := by
  refine h.of_rounds_frame (roundsRest_frame s) (roundsRest_frame s') (Fin.ext ?_)
  rw [roundsRest_rc s, roundsRest_rc s']

/-- The checks of a command read SC, RC and HV only. -/
theorem errorOf (h : s.SameControl s') (i : Instr) : errorOf i s = errorOf i s' := by
  obtain ⟨hsc, hrc, hhv, -, -, -, -⟩ := h
  cases i <;> simp only [Machine.errorOf, hsc, hrc, hhv]

theorem effectOf (h : s.SameControl s') {i : Instr} (henabled : Machine.errorOf i s = none) :
    (effectOf i s).SameControl (effectOf i s') := by
  cases i with
  | nop => exact h
  | srst => exact ⟨rfl, rfl, rfl, rfl, rfl, rfl, h.bus⟩
  | init => exact ⟨rfl, rfl, rfl, h.dv, h.err, h.ecode, h.bus⟩
  | rotr | shr | ch | maj | bsig0 | bsig1 | ssig0 | ssig1 | add => exact h.setResult _ _
  | exp1 =>
    obtain ⟨hlo, hhi⟩ := exp1_enabled henabled
    exact h.expandStep hlo hhi
  | expall => exact h.expandRest (expall_enabled henabled)
  | rnd1 =>
    obtain ⟨-, hdue, -⟩ := rnd1_enabled henabled
    exact h.roundStep hdue
  | rndall => exact h.roundsRest
  | accum => exact h.accumulateStep
  | block =>
    obtain ⟨-, hlo⟩ := block_enabled henabled
    exact (h.expandRest hlo).roundsRest.accumulateStep
  | encode => exact h.withDigest _ _

theorem hardReset (h : s.SameControl s') : (hardReset s).SameControl (hardReset s') :=
  ⟨rfl, rfl, rfl, rfl, rfl, rfl, h.bus⟩

end State.SameControl

/-- Two outcomes alike but for the datapath registers. -/
inductive SameOutcome : Host.Outcome State Fault Refusal → Host.Outcome State Fault Refusal → Prop
  | next {t t' : State} (h : t.SameControl t') : SameOutcome (.next t) (.next t')
  | refused (r : Refusal) : SameOutcome (.refused r) (.refused r)

/-- Two outcomes chosen by one condition, alike on both of its branches. -/
theorem SameOutcome.ite {c : Prop} [Decidable c] {a a' b b' : Host.Outcome State Fault Refusal} (ha : SameOutcome a a')
    (hb : SameOutcome b b') : SameOutcome (if c then a else b) (if c then a' else b') := by
  by_cases hc : c
  · rw [if_pos hc, if_pos hc]
    exact ha
  · rw [if_neg hc, if_neg hc]
    exact hb

section

variable {s s' : State} (h : s.SameControl s')
include h

theorem sameOutcome_exec (i : Instr) : SameOutcome (exec i s) (exec i s') := by
  cases herror : errorOf i s with
  | some c =>
    rw [exec_error herror, exec_error ((h.errorOf i).symm.trans herror)]
    exact .next (h.recordError c)
  | none =>
    rw [exec_effect herror, exec_effect ((h.errorOf i).symm.trans herror)]
    exact .next (h.effectOf herror)

theorem sameOutcome_execute (v : Word) : SameOutcome (execute v s) (execute v s') := by
  cases hdecode : decode v with
  | ok i =>
    rw [execute_ok hdecode, execute_ok hdecode]
    exact sameOutcome_exec h i
  | error e =>
    cases e with
    | illegalOpcode =>
      rw [execute_illegal hdecode, execute_illegal hdecode]
      exact .next (h.recordError _)
    | badField =>
      rw [execute_bad hdecode, execute_bad hdecode]
      exact .next (h.recordError _)

theorem sameOutcome_msgIn (v : Word) : SameOutcome (msgIn v s) (msgIn v s') := by
  by_cases hroom : s.sc.val < 16
  · have hroom' : s'.sc.val < 16 := h.sc ▸ hroom
    obtain ⟨t, hpush, hframe, hcount, -⟩ := msgIn_push v s hroom
    obtain ⟨t', hpush', hframe', hcount', -⟩ := msgIn_push v s' hroom'
    rw [hpush, hpush']
    exact .next (h.of_schedule_frame hframe hframe' (Fin.ext (by rw [hcount, hcount', h.sc])))
  · have hfull : 16 ≤ s.sc.val := by omega
    rw [msgIn_full v s hfull, msgIn_full v s' (h.sc ▸ hfull)]
    exact .next (h.recordError .seqSched)

theorem sameOutcome_registerWrite (off : Nat) (v : Word) : SameOutcome (registerWrite off v s) (registerWrite off v s') := by
  have hstatus := SameOutcome.next (h.writeStatus v)
  have hx := SameOutcome.next (h.withOperands v s.y s.z v s'.y s'.z)
  have hy := SameOutcome.next (h.withOperands s.x v s.z s'.x v s'.z)
  have hz := SameOutcome.next (h.withOperands s.x s.y v s'.x s'.y v)
  have hpush := sameOutcome_msgIn h v
  have hrefused := SameOutcome.next (h.recordError .busWrite)
  exact hstatus.ite (hx.ite (hy.ite (hz.ite (hpush.ite hrefused))))

theorem sameOutcome_memWrite (off : Nat) (v : Word) : SameOutcome (memWrite off v s) (memWrite off v s') := by
  by_cases hcmd : off = 0x000
  · subst hcmd
    exact sameOutcome_execute h v
  · rw [memWrite_of_ne_zero hcmd, memWrite_of_ne_zero hcmd]
    exact sameOutcome_registerWrite h off v

theorem sameOutcome_perform (e : HostEvent) : SameOutcome (perform e s) (perform e s') := by
  cases e with
  | reset => exact .next h.hardReset
  | read addr bytes =>
    cases haccess : accessOffset addr bytes with
    | ok off =>
      rw [perform_read haccess, perform_read haccess]
      exact .next (h.withRdata _ _)
    | error r =>
      simp only [perform, haccess]
      exact .refused r
  | write addr bytes v =>
    cases haccess : accessOffset addr bytes with
    | ok off =>
      rw [perform_write haccess, perform_write haccess]
      exact sameOutcome_memWrite (h.withRdata none none) off v
    | error r =>
      simp only [perform, haccess]
      exact .refused r

theorem sameOutcome_step : SameOutcome (step s) (step s') := by
  cases hbus : s.bus with
  | nil =>
    have hidle : step s = .next s := by simp only [step, hbus, idle]
    have hidle' : step s' = .next s' := by simp only [step, ← h.bus, hbus, idle]
    rw [hidle, hidle']
    exact .next h
  | cons e rest =>
    rw [step_of_bus hbus, step_of_bus (h.bus.symm.trans hbus)]
    exact sameOutcome_perform (h.onBus rest s.rdata s'.rdata) e

end

/-- Settles O48, from `sameOutcome_step`. -/
theorem controlIgnoresData : Obligations.ControlIgnoresData := by
  unfold Obligations.ControlIgnoresData
  intro s s' h
  have hstep := sameOutcome_step h
  generalize step s' = outcome at hstep ⊢
  refine ⟨fun t ht => ?_, fun r hr => ?_⟩
  · rw [ht] at hstep
    cases hstep with
    | next hsame => exact ⟨_, rfl, hsame⟩
  · rw [hr] at hstep
    cases hstep with
    | refused => rfl

end Sys2Proof.Machine
